-- ==== Sys2Proof/Word.lean ====
section
/-! DEFINITION. The word types of TSL-CFD and its tagged floating-point value (00_scope.md R6, R8). -/

namespace Sys2Proof

/-- One byte: the addressable unit of the frame buffer (R50). -/
abbrev Byte := BitVec 8

/-- A U16 field, most significant byte first (R74). -/
abbrev Half := BitVec 16

/-- A U24 field; read as a compact float word it is a CF24 (R75). -/
abbrev Word24 := BitVec 24

/-- A floating-point result (R8): a tagged value, not a host floating-point sentinel.
`finite s q` denotes `(-1)^s * q` with `q ≥ 0`; `s = true` is sign 1, and the two zeros are different
values. `nan` has no sign and no payload (spec decision D7, log 5). -/
inductive FVal where
  | finite (s : Bool) (q : Rat)
  | posInf
  | negInf
  | nan
  deriving DecidableEq, Repr, Inhabited

/-- The magnitude of a finite value is not negative (R8). -/
def FVal.wf : FVal → Bool
  | .finite _ q => decide (0 ≤ q)
  | .posInf => true
  | .negInf => true
  | .nan => true

end Sys2Proof
end

