-- ==== Sys2Proof/Config.lean ====
section
/-! DEFINITION. The parameters of 00_scope.md R5: decided ones as named constants, open ones as constants
without a body. The literals are transcribed as the spec prints them; the spec calls them unaudited. -/

namespace Sys2Proof

/-- `TAG` (R5, spec decision D1; log 2). -/
def Config.tag : Byte := 0x2A

/-- `CHANNEL_ID` (R5, D2): OPEN. A constant without a body: no number can be read off it (log 1). -/
opaque Config.channelId : Int

/-- `EXP_BIAS` (R5). -/
def Config.expBias : Int := 63

/-- `V_SCALE` (R5). -/
def Config.vScale : Nat := 4096

/-- `T_SCALE` (R5). -/
def Config.tScale : Nat := 256

/-- `RH_MUL` (R5). -/
def Config.rhMul : Nat := 100

/-- `RH_DIV` (R5). -/
def Config.rhDiv : Nat := 65535

/-- `MAX_USED` (R5, R78): the largest number of frame bytes the block ever reads. -/
def Config.maxUsed : Nat := 18

/-- `Derive` (R5, D19): none is attached in the CORE configuration; `Cfg.deriveAttached` holds the choice
of an instance (log 14). -/
def Config.deriveAttached : Bool := false

/-- `OUT_FMT` (R5, D5): binary64. Significand bits, the implicit one included (PRESUMED: IEEE 754, G4). -/
def Config.outPrecision : Int := 53

/-- Smallest normal exponent of `OUT_FMT` (R129; IEEE 754, G4). -/
def Config.outMinExp : Int := -1022

/-- Largest exponent of `OUT_FMT`, which is also its bias (R129; IEEE 754, G4). -/
def Config.outMaxExp : Int := 1023

/-- The formulas of 44_derived_quantities.md whose rounding nothing fixes (R200). -/
inductive DeriveStep where
  | dewpoint
  | heatEasy
  | heatSum
  | heatFull
  | heatCorrected
  deriving DecidableEq, Repr

/-- The arithmetic of one implementation of `Derive`, which nothing in the spec fixes (R200). -/
structure DeriveArith where
  /-- The natural logarithm as it is computed (R191). -/
  ln : Rat → Rat
  /-- The square root as it is computed (R195). -/
  sqrt : Rat → Rat
  /-- What a formula yields for its exact value, on the arguments `t` and `rh`. -/
  fl : DeriveStep → (exact t rh : Rat) → Rat
  /-- The sign of a dewpoint that is zero, on the arguments of `Derive`. -/
  dewpointZeroSign : (t rh : Rat) → Bool
  /-- The sign of a heat index that is zero, on the arguments of `Derive`. -/
  heatIndexZeroSign : (t rh : Rat) → Bool
  deriving Inhabited

/-- The arithmetic of this implementation: free (R200: total, and functions of the two arguments alone; log 14). -/
opaque Config.deriveArith : DeriveArith

/-- `RoundInt` at a value halfway between two integers: free (R192, N20, U12; log 20). -/
opaque Config.roundTieUp : Rat → Bool

/-- `Derive` on arguments that are not both finite, which FIELD3 never supplies (R190): free (log 15). -/
opaque Config.deriveNonFinite (t rh : FVal) : FVal × Option FVal

end Sys2Proof
end

