-- ==== Sys2Proof/Machine/Derive.lean ====
section
/-! DEFINITION. The derived-quantity function that may be attached (44_derived_quantities.md, R179): outside CORE,
called by FIELD3 only when the instance has it. Each formula is written as the spec gives it, over the rationals;
what an implementation's arithmetic `A` makes of its exact value is free (R200, log 14). -/

namespace Sys2Proof.Machine

/-- The number a finite value denotes: `(-1)^s * q` (R8). -/
def signedValue (s : Bool) (q : Rat) : Rat := if s then -q else q

/-- A derived number as a tagged value, with the given sign if it is zero (R8). -/
def derivedValue (zeroSign : Bool) (r : Rat) : FVal :=
  .finite (if r = 0 then zeroSign else decide (r < 0)) |r|

/-- `rh/100` clamped into [0.01, 1.0] (R191). -/
def clampedHumidity (rh : Rat) : Rat := min 1 (max (1 / 100) (rh / 100))

/-- `g` of R191: the clamped humidity goes through the logarithm. -/
def magnus (A : DeriveArith) (t rh : Rat) : Rat :=
  A.ln (clampedHumidity rh) + t * (17625 / 1000) / (t + 24304 / 100)

/-- Dewpoint in °C: the Magnus form, `c1 = 243.04`, `c2 = 17.625` (R191). Always defined. -/
def dewpoint (A : DeriveArith) (t rh : Rat) : Rat :=
  A.fl .dewpoint (24304 / 100 * magnus A t rh / (17625 / 1000 - magnus A t rh)) t rh

/-- `RoundInt`: the nearest integer; which one at a tie is free (R192, N20; log 20). -/
def roundInt (x : Rat) : Int :=
  let f := x.floor
  if x - f < 1 / 2 then f
  else if 1 / 2 < x - f then f + 1
  else if Config.roundTieUp x then f + 1
  else f

/-- The domain of the heat index: the rounded temperature in [76, 126], the humidity in [0, 100] (R192). -/
def heatDomain (t rh : Rat) : Bool :=
  decide (76 ≤ roundInt t) && decide (roundInt t ≤ 126) && decide (0 ≤ rh) && decide (rh ≤ 100)

/-- The simple formula (R193). -/
def heatEasy (A : DeriveArith) (t rh : Rat) : Rat :=
  A.fl .heatEasy (1 / 2 * (t + 61 + (t - 68) * (12 / 10) + rh * (94 / 1000))) t rh

/-- The sum that the test of the simple formula compares with 160 (R193). -/
def heatSum (A : DeriveArith) (t rh : Rat) : Rat := A.fl .heatSum (heatEasy A t rh + t) t rh

/-- The full regression (R194). PRESUMED: the nine coefficients are the spec's from general knowledge (G2, log
22). -/
def heatFull (A : DeriveArith) (t rh : Rat) : Rat :=
  A.fl .heatFull
    (-(42379 / 1000) + 204901523 / 100000000 * t + 1014333127 / 100000000 * rh
      - 22475541 / 100000000 * t * rh - 683783 / 100000000 * t * t - 5481717 / 100000000 * rh * rh
      + 122874 / 100000000 * t * t * rh + 85282 / 100000000 * t * rh * rh
      - 199 / 100000000 * t * t * rh * rh) t rh

/-- The full regression with its correction term (R195). -/
def heatCorrected (A : DeriveArith) (t rh : Rat) : Rat :=
  if rh < 13 ∧ 80 ≤ t ∧ t ≤ 112 then
    A.fl .heatCorrected (heatFull A t rh - (13 - rh) / 4 * A.sqrt ((17 - |t - 95|) / 17)) t rh
  else if 85 < rh ∧ 80 ≤ t ∧ t ≤ 87 then
    A.fl .heatCorrected (heatFull A t rh + (rh - 85) / 10 * ((87 - t) / 5)) t rh
  else heatFull A t rh

/-- Heat index in °F, or absent (R192 to R196). The test of the domain rounds `t`; the formulas do not. -/
def heatIndexF (A : DeriveArith) (t rh : Rat) : Option Rat :=
  if heatDomain t rh then
    if heatSum A t rh < 160 then some (heatEasy A t rh)
    else if heatCorrected A t rh < 1835 / 10 then some (heatCorrected A t rh)
    else none
  else none

/-- `CtoF`: exact, and of the temperature alone (R198, D25, G3; log 22). -/
def celsiusToFahrenheit (t : Rat) : Rat := t * 9 / 5 + 32

/-- Heat index in °C: the conversion of a defined result; an absent one passes through (R197). -/
def heatIndexC (A : DeriveArith) (tF rh : Rat) : Option Rat := (heatIndexF A tF rh).map fun f => (f - 32) * 5 / 9

/-- `Derive(t, rh) = (Dewpoint(t, rh), HeatIndexC(CtoF(t), rh))` with a given arithmetic, total (R190). -/
def deriveWith (A : DeriveArith) (t rh : FVal) : FVal × Option FVal :=
  match t, rh with
  | .finite st qt, .finite sr qr =>
    let tC := signedValue st qt
    let h := signedValue sr qr
    (derivedValue (A.dewpointZeroSign tC h) (dewpoint A tC h),
      (heatIndexC A (celsiusToFahrenheit tC) h).map (derivedValue (A.heatIndexZeroSign tC h)))
  | _, _ => Config.deriveNonFinite t rh

/-- The attached `Derive` (R190), with this implementation's arithmetic. -/
def derive (t rh : FVal) : FVal × Option FVal := deriveWith Config.deriveArith t rh

end Sys2Proof.Machine
end

