-- ==== Sys2Proof/Machine/State.lean ====
section
/-! DEFINITION. The state of the block, as plain data: every register of 10_state.md, the inputs of one decode,
and the model's own fields (INVENTORY.md, State). The reset state (R30, R240). Faults and refusals. -/

namespace Sys2Proof.Machine

/-- `ST`, the parser state: 13 values (R22). -/
inductive PState where
  | idle
  | awaitingTag
  | awaitingBitmap
  | field (k : Fin 7)
  | done
  | notMine
  | failed
  deriving DecidableEq, Repr

/-- `STATUS`, the outcome register (R26). -/
inductive Status where
  | record
  | notMine
  | decodeError
  deriving DecidableEq, Repr

/-- `DIAG_CAUSE`: the one exception cause (R27, R210). -/
inductive Cause where
  | outOfBounds
  deriving DecidableEq, Repr

/-- The names of the record registers, in the order of the source's field list (R24, R31). -/
inductive Field where
  | batteryVoltage
  | busVoltage
  | bootCount
  | temperatureC
  | humidityPct
  | dewpointC
  | heatIndexC
  | lux
  | probeOneTemperatureC
  | probeTwoTemperatureC
  deriving DecidableEq, Repr

/-- The record registers (R24, R31): each holds a value or none, never a default. `VALID.f` is read off the
register (Flags.lean; log 16). -/
structure Record where
  batteryVoltage : Option FVal
  busVoltage : Option FVal
  bootCount : Option (BitVec 8)
  temperatureC : Option FVal
  humidityPct : Option FVal
  dewpointC : Option FVal
  heatIndexC : Option FVal
  lux : Option FVal
  probeOneTemperatureC : Option FVal
  probeTwoTemperatureC : Option FVal
  deriving DecidableEq, Repr

/-- A call of the decoder: the byte sequence and the channel identifier (R160, R20). Its length is the number of
its bytes (R20, R243 duty 2). -/
structure Call where
  bytes : List Byte
  ch : Int
  deriving DecidableEq, Repr

/-- The parameters one instance is configured with, constant for its life (R5, R28; logs 1 and 14). -/
structure Cfg where
  channelId : Int
  deriveAttached : Bool
  deriving DecidableEq, Repr

/-- The value a micro-operation returns (R101 to R104, R120, R141 to R145). -/
inductive RetVal where
  | u8 (v : BitVec 8)
  | u16 (v : BitVec 16)
  | i16 (v : Int)
  | u24 (v : BitVec 24)
  | fval (v : FVal)
  deriving DecidableEq, Repr

/-- The value of a record register as its reader sees it: floating-point, or integer for the boot counter
(R24). -/
inductive RecVal where
  | fval (v : FVal)
  | count (v : BitVec 8)
  deriving DecidableEq, Repr

/-- The state of one instance. -/
structure State where
  /-- The instance's parameters: no operation changes them (R5, R28). -/
  cfg : Cfg
  /-- The MODEL's own: a call presented by the caller that START has not taken yet (R241; log 8). -/
  call : Option Call
  /-- `BUF`, the frame buffer, as cells in canonical form (R20, R50). -/
  mem : List Host.Cell
  /-- `LEN` (R20). -/
  len : Nat
  /-- `CH` (R20). -/
  ch : Int
  /-- `ST` (R22). -/
  st : PState
  /-- `OFF`, the cursor offset: the program counter (R21). -/
  off : Nat
  /-- `BM`, the bitmap register (R23). -/
  bm : BitVec 8
  /-- The record registers with their presence (R24, R25, R31). -/
  record : Record
  /-- `STATUS`: none when it is not valid (R26, R30). -/
  status : Option Status
  /-- `OFF_FINAL`: none when it is not valid (R21, R30). -/
  offFinal : Option Nat
  /-- `DIAG_CH` (R27). -/
  diagCh : Option Int
  /-- `DIAG_TAG_VALID` (R27). -/
  diagTagValid : Option Bool
  /-- `DIAG_TAG` (R27). -/
  diagTag : Option (BitVec 8)
  /-- `DIAG_CAUSE` (R27). -/
  diagCause : Option Cause
  /-- The MODEL's own: what the last micro-operation performed on its own returned (log 9). -/
  ret : Option RetVal
  deriving DecidableEq, Repr

/-- Why the machine stops with a fault. -/
inductive Fault where
  /-- Raised by a read of the frame buffer at an offset below `LEN` that the buffer does not hold: the caller
  broke duty 2 of R243 (`LEN` is the true number of bytes of `BUF`). Safe: the model stops where the spec says
  nothing, and no state a run reaches has such an offset (log 10). -/
  | absentByte (addr : Nat)
  deriving DecidableEq, Repr

/-- Why the model gives no next state. -/
inductive Refusal where
  /-- Raised by an arm of `exec` whose instruction has no meaning yet; no arm does. Safe. -/
  | notModelled (mnemonic : String)
  /-- Raised by `step` when a call is presented while a decode is running (R241, U9, D22). Safe. -/
  | startWhileRunning
  /-- Raised by `readRecord`, the caller's read of a record register that holds no value (R24, U14). Safe. -/
  | noRecordValue (f : Field)
  deriving DecidableEq, Repr

/-- A record no register of which holds a value (R25, R30). -/
def Record.empty : Record :=
  { batteryVoltage := none, busVoltage := none, bootCount := none, temperatureC := none, humidityPct := none,
    dewpointC := none, heatIndexC := none, lux := none, probeOneTemperatureC := none,
    probeTwoTemperatureC := none }

/-- The state after reset (R30, R240). `bm`, `mem`, `len` and `ch` have values the spec does not give (logs 6
and 7); `cfg.channelId` is the unknown constant of the configuration (log 1). -/
def State.reset : State :=
  { cfg := { channelId := Config.channelId, deriveAttached := Config.deriveAttached }
    call := none
    mem := []
    len := 0
    ch := 0
    st := .idle
    off := 0
    bm := 0
    record := Record.empty
    status := none
    offFinal := none
    diagCh := none
    diagTagValid := none
    diagTag := none
    diagCause := none
    ret := none }

end Sys2Proof.Machine
end

