-- ==== Sys2Proof/Machine/Flags.lean ====
section
/-! DEFINITION. The presence bits, the only flags the block keeps (R25, R34): no operation writes a flag other
than by writing the record register, so the bit is read off the register. -/

namespace Sys2Proof.Machine

/-- The value of a record register, if it holds one (R24). -/
def Record.get (r : Record) : Field → Option RecVal
  | .batteryVoltage => r.batteryVoltage.map .fval
  | .busVoltage => r.busVoltage.map .fval
  | .bootCount => r.bootCount.map .count
  | .temperatureC => r.temperatureC.map .fval
  | .humidityPct => r.humidityPct.map .fval
  | .dewpointC => r.dewpointC.map .fval
  | .heatIndexC => r.heatIndexC.map .fval
  | .lux => r.lux.map .fval
  | .probeOneTemperatureC => r.probeOneTemperatureC.map .fval
  | .probeTwoTemperatureC => r.probeTwoTemperatureC.map .fval

/-- `VALID.f`: the key `f` is present in the record (R25). -/
def Record.valid (r : Record) (f : Field) : Bool := (r.get f).isSome

/-- The caller's read of a record register: its value, or a refusal where it holds none (R24, U14; log 21).
DESIGN CHOICE (log 23): while `STATUS` is not `RECORD` the read answers in the same way, with what the register holds
at that moment; duty 4 of R243 keeps the caller from such a read, and the spec says no result of it. -/
def readRecord (f : Field) (s : State) : Host.Outcome RecVal Fault Refusal :=
  match s.record.get f with
  | some v => .next v
  | none => .refused (.noRecordValue f)

end Sys2Proof.Machine
end

