-- ==== Sys2Proof/Syntax.lean ====
section
/-! DEFINITION. The instructions: one constructor for each of the 24 rows of opcode_table.json (R85). -/

namespace Sys2Proof

/-- The frame steps of 43_frame_parser.md and the micro-operations of files 40 to 42 (R1, R10).
Only the compact float rows have an operand of their own, the word or its fields (R120, R75); every other
operation acts on the frame at the cursor and has none (R107, R140). -/
inductive Instr where
  /-- CHGATE, the channel gate (R162). -/
  | chgate
  /-- TAGCHK, the format-tag gate (R163). -/
  | tagchk
  /-- BMLOAD, read the bitmap (R164). -/
  | bmload
  /-- FIELD0, battery voltage (R166). -/
  | field0
  /-- FIELD1, bus voltage (R167). -/
  | field1
  /-- FIELD2, boot counter (R168). -/
  | field2
  /-- FIELD3, temperature then humidity (R169). -/
  | field3
  /-- FIELD4, light level (R170). -/
  | field4
  /-- FIELD5, probe-one temperature (R171). -/
  | field5
  /-- FIELD6, probe-two temperature (R172). -/
  | field6
  /-- RDU8 (R101). -/
  | rdu8
  /-- RDU16 (R102). -/
  | rdu16
  /-- RDI16 (R103). -/
  | rdi16
  /-- RDU24 (R104). -/
  | rdu24
  /-- CFDEC of a compact float word (R120). -/
  | cfdec (w : Word24)
  /-- CFDEC.INF: exponent 127, mantissa 0 (R122). -/
  | cfdecInf (sgn : Bool)
  /-- CFDEC.NAN: exponent 127, mantissa not 0 (R122). -/
  | cfdecNan (sgn : Bool) (m : Half)
  /-- CFDEC.NORM: exponent 1 to 126 (R123). -/
  | cfdecNorm (sgn : Bool) (e : BitVec 7) (m : Half)
  /-- CFDEC.DEN: exponent 0, zero included (R124). -/
  | cfdecDen (sgn : Bool) (m : Half)
  /-- VOLT (R141). -/
  | volt
  /-- TEMP (R142). -/
  | temp
  /-- RH (R143). -/
  | rh
  /-- LUX (R144). -/
  | lux
  /-- BOOT (R145). -/
  | boot
  deriving DecidableEq, Repr

end Sys2Proof
end

