-- ==== Sys2Proof/WellFormed.lean ====
section
/-! DEFINITION. The checks the table's constraints put on an instruction's operands (R81). -/

namespace Sys2Proof

/-- The constraint columns of opcode_table.json: CFDEC.NAN has `m ≠ 0`, CFDEC.NORM has `1 ≤ e ≤ 126`;
no other row has a constraint beyond the widths of its fields (R81, R82). -/
def Instr.wellFormed : Instr → Bool
  | .cfdecNan _ m => decide (m ≠ 0)
  | .cfdecNorm _ e _ => decide (1 ≤ e.toNat) && decide (e.toNat ≤ 126)
  | .chgate => true
  | .tagchk => true
  | .bmload => true
  | .field0 => true
  | .field1 => true
  | .field2 => true
  | .field3 => true
  | .field4 => true
  | .field5 => true
  | .field6 => true
  | .rdu8 => true
  | .rdu16 => true
  | .rdi16 => true
  | .rdu24 => true
  | .cfdec _ => true
  | .cfdecInf _ => true
  | .cfdecDen _ _ => true
  | .volt => true
  | .temp => true
  | .rh => true
  | .lux => true
  | .boot => true

end Sys2Proof
end

