-- ==== Sys2Proof/Decode.lean ====
section
/-! DEFINITION. The decoder: from the place where bytes stand in a frame and the bytes themselves to an
instruction, total, rejecting by name; then the encoder, written from the same tables (R70 to R76, R81, R85). -/

namespace Sys2Proof

/-- The sign bit of a CF24 word: `w[23]` (R75, R121). -/
def cfSign (w : Word24) : Bool := w.getLsbD 23

/-- The exponent field of a CF24 word: `w[22:16]` (R75, R121). -/
def cfExp (w : Word24) : BitVec 7 := w.extractLsb' 16 7

/-- The mantissa field of a CF24 word: `w[15:0]` (R75, R121). -/
def cfMant (w : Word24) : Half := w.extractLsb' 0 16

/-- The CF24 word with the given fields: `{s, e, m}` (R75). -/
def cfWord (sgn : Bool) (e : BitVec 7) (m : Half) : Word24 := BitVec.ofBool sgn ++ e ++ m

/-- The least set bit `j` of the bitmap with `k ≤ j ≤ 6`; bit 7 is never examined (R165, R79). -/
def firstGroup (k : Nat) (b : Byte) : Option (Fin 7) :=
  ([0, 1, 2, 3, 4, 5, 6] : List (Fin 7)).find? fun j => decide (k ≤ j.val) && b.getLsbD j.val

/-- The step that bitmap bit `k` selects: FIELD`k` (R72, R85). -/
def fieldInstr (k : Fin 7) : Instr :=
  match k with
  | 0 => .field0
  | 1 => .field1
  | 2 => .field2
  | 3 => .field3
  | 4 => .field4
  | 5 => .field5
  | 6 => .field6

/-- The micro-operations that have no selecting pattern: the invoking step names them, and the frame bytes
at the cursor are their operand (R85, R73). -/
inductive Micro where
  | rdu8
  | rdu16
  | rdi16
  | rdu24
  | cfdec
  | volt
  | temp
  | rh
  | lux
  | boot
  deriving DecidableEq, Repr

/-- Where bytes stand for the decoder: what selects an operation is the place as well as the bits (R85). -/
inductive Slot where
  /-- Before byte 0: the channel gate, which takes no frame byte (R162). -/
  | gate
  /-- Byte 0, the format tag (R71). -/
  | tag
  /-- Byte 1, to be loaded (R72). -/
  | bitmap
  /-- Byte 1 as the selector of the next field step from bit `k` up (R85, R165). -/
  | select (k : Nat)
  /-- The operand of a named micro-operation (R86). -/
  | operand (m : Micro)
  /-- A CF24 word, to be classified (R81). -/
  | cfClass
  deriving DecidableEq, Repr

/-- Why bytes are no instruction. -/
inductive Reject where
  /-- Fewer bytes than the format needs. -/
  | missingByte
  /-- Byte 0 is not `TAG`: not this decoder's format (R71, R80). -/
  | otherTag
  /-- No set bit from `k` to 6: no field step is selected (R165). -/
  | noGroup
  deriving DecidableEq, Repr

/-- The class of a CF24 word (R81, R121): the exponent and the mantissa select it. -/
def cfClassify (w : Word24) : Instr :=
  if cfExp w = 0x7F then
    if cfMant w = 0 then .cfdecInf (cfSign w) else .cfdecNan (cfSign w) (cfMant w)
  else if cfExp w = 0 then .cfdecDen (cfSign w) (cfMant w)
  else .cfdecNorm (cfSign w) (cfExp w) (cfMant w)

/-- A named micro-operation with its operand bytes (R86). The bits of an operand choose nothing (R82). -/
def decodeMicro : Micro → List Byte → Except Reject (Instr × List Byte)
  | .rdu8, _ :: rest => .ok (.rdu8, rest)
  | .boot, _ :: rest => .ok (.boot, rest)
  | .rdu16, _ :: _ :: rest => .ok (.rdu16, rest)
  | .rdi16, _ :: _ :: rest => .ok (.rdi16, rest)
  | .volt, _ :: _ :: rest => .ok (.volt, rest)
  | .temp, _ :: _ :: rest => .ok (.temp, rest)
  | .rh, _ :: _ :: rest => .ok (.rh, rest)
  | .rdu24, _ :: _ :: _ :: rest => .ok (.rdu24, rest)
  | .lux, _ :: _ :: _ :: rest => .ok (.lux, rest)
  | .cfdec, b0 :: b1 :: b2 :: rest => .ok (.cfdec (b0 ++ b1 ++ b2), rest)
  | _, _ => .error .missingByte

/-- The decoder: the instruction that stands first in the bytes, and the bytes after it. -/
def decode : Slot → List Byte → Except Reject (Instr × List Byte)
  | .gate, bytes => .ok (.chgate, bytes)
  | .tag, b :: rest => if b = Config.tag then .ok (.tagchk, rest) else .error .otherTag
  | .tag, [] => .error .missingByte
  | .bitmap, _ :: rest => .ok (.bmload, rest)
  | .bitmap, [] => .error .missingByte
  | .select k, b :: rest =>
    match firstGroup k b with
    | some j => .ok (fieldInstr j, rest)
    | none => .error .noGroup
  | .select _, [] => .error .missingByte
  | .operand m, bytes => decodeMicro m bytes
  | .cfClass, b0 :: b1 :: b2 :: rest => .ok (cfClassify (b0 ++ b1 ++ b2), rest)
  | .cfClass, _ => .error .missingByte

/-- The bytes of a number of `n` bytes, most significant first (R52). -/
def bytesOfNat : Nat → Nat → List Byte
  | 0, _ => []
  | n + 1, w => BitVec.ofNat 8 (w / 256 ^ n) :: bytesOfNat n w

/-- Where a word of opcode_table.json stands, when only its width and bits are given (log 13): no bits is
CHGATE; a byte is the tag when it equals `TAG`, else the selector of its least set group bit, else a bitmap to
load; three bytes are a CF24 word; two bytes are the operand of the primitive reader RDU16. -/
def tableSlot (nbits w : Nat) : Option Slot :=
  if nbits = 0 then some .gate
  else if nbits = 8 then
    if BitVec.ofNat 8 w = Config.tag then some .tag
    else if (firstGroup 0 (BitVec.ofNat 8 w)).isSome then some (.select 0)
    else some .bitmap
  else if nbits = 16 then some (.operand .rdu16)
  else if nbits = 24 then some .cfClass
  else none

/-- The instruction the decoder reads from a table word: the word is laid out most significant byte first, as
the frame stores it (R52), and given to `decode` at the place `tableSlot` names. -/
def decodeTableWord (nbits w : Nat) : Option Instr :=
  match tableSlot nbits w with
  | none => none
  | some slot =>
    match decode slot (bytesOfNat (nbits / 8) w) with
    | .ok (i, _) => some i
    | .error _ => none

/-- The place where the words of an instruction stand. -/
def Instr.slot : Instr → Slot
  | .chgate => .gate
  | .tagchk => .tag
  | .bmload => .bitmap
  | .field0 => .select 0
  | .field1 => .select 0
  | .field2 => .select 0
  | .field3 => .select 0
  | .field4 => .select 0
  | .field5 => .select 0
  | .field6 => .select 0
  | .rdu8 => .operand .rdu8
  | .rdu16 => .operand .rdu16
  | .rdi16 => .operand .rdi16
  | .rdu24 => .operand .rdu24
  | .cfdec _ => .operand .cfdec
  | .cfdecInf _ => .cfClass
  | .cfdecNan _ _ => .cfClass
  | .cfdecNorm _ _ _ => .cfClass
  | .cfdecDen _ _ => .cfClass
  | .volt => .operand .volt
  | .temp => .operand .temp
  | .rh => .operand .rh
  | .lux => .operand .lux
  | .boot => .operand .boot

/-- The three bytes of a CF24 word, most significant first (R75). -/
def cfBytes (w : Word24) : List Byte :=
  [w.extractLsb' 16 8, w.extractLsb' 8 8, w.extractLsb' 0 8]

/-- The words of an instruction (opcode_table.json): its fixed bits and its operand fields. Operand bytes that
belong to the frame and choose nothing (readers, adapters, the bitmap to load) are written as zeros. -/
def encode : Instr → List Byte
  | .chgate => []
  | .tagchk => [Config.tag]
  | .bmload => [0x00]
  | .field0 => [0x01]
  | .field1 => [0x02]
  | .field2 => [0x04]
  | .field3 => [0x08]
  | .field4 => [0x10]
  | .field5 => [0x20]
  | .field6 => [0x40]
  | .rdu8 => [0x00]
  | .rdu16 => [0x00, 0x00]
  | .rdi16 => [0x00, 0x00]
  | .rdu24 => [0x00, 0x00, 0x00]
  | .cfdec w => cfBytes w
  | .cfdecInf sgn => cfBytes (cfWord sgn 0x7F 0)
  | .cfdecNan sgn m => cfBytes (cfWord sgn 0x7F m)
  | .cfdecNorm sgn e m => cfBytes (cfWord sgn e m)
  | .cfdecDen sgn m => cfBytes (cfWord sgn 0 m)
  | .volt => [0x00, 0x00]
  | .temp => [0x00, 0x00]
  | .rh => [0x00, 0x00]
  | .lux => [0x00, 0x00, 0x00]
  | .boot => [0x00]

end Sys2Proof
end

