-- ==== Sys2Proof/Machine/Memory.lean ====
section
/-! DEFINITION. The frame buffer (20_memory.md): a list of cells in canonical form, read one, two or three bytes
at a time, most significant byte first. It is never written (R56); START places a frame in it. -/

namespace Sys2Proof.Machine

/-- The frame buffer: cells (address, byte). -/
abbrev Memory := List Host.Cell

/-- What an address without a cell reads as: no byte, since `BUF[i]` is defined for `0 ≤ i < LEN` only
(R50; log 10). -/
def Memory.unlisted : Option Byte := none

/-- `BUF[a]` (R50). -/
def Memory.byteAt : Memory → Nat → Option Byte
  | [], _ => Memory.unlisted
  | (b, v) :: m, a => if b = a then some v else Memory.byteAt m a

/-- Addresses strictly rising. -/
def Memory.rising : Memory → Bool
  | [] => true
  | [_] => true
  | c :: d :: m => decide (c.1 < d.1) && Memory.rising (d :: m)

/-- The canonical form: addresses strictly rising, no cell equal to what an unlisted address reads as. -/
def Memory.wf (m : Memory) : Bool :=
  Memory.rising m && m.all fun c => some c.2 != Memory.unlisted

/-- The buffer holds exactly the bytes at `0` to `len - 1` (R50, R243 duty 2). -/
def Memory.complete (m : Memory) (len : Nat) : Bool := m.map Prod.fst == List.range len

/-- Cells for a byte sequence that begins at address `a`. -/
def Memory.ofBytesFrom : Nat → List Byte → Memory
  | _, [] => []
  | a, b :: bs => (a, b) :: Memory.ofBytesFrom (a + 1) bs

/-- The buffer that holds a byte sequence (R20). -/
def Memory.ofBytes (bs : List Byte) : Memory := Memory.ofBytesFrom 0 bs

/-- `MemRead(a, 1)` (R53). -/
def memRead1 (m : Memory) (a : Nat) : Option Byte := Memory.byteAt m a

/-- `MemRead(a, 2)`: the byte at the lower offset is the more significant (R52, R53). -/
def memRead2 (m : Memory) (a : Nat) : Option Half :=
  match Memory.byteAt m a, Memory.byteAt m (a + 1) with
  | some b0, some b1 => some (b0 ++ b1)
  | _, _ => none

/-- `MemRead(a, 3)` (R52, R53). -/
def memRead3 (m : Memory) (a : Nat) : Option Word24 :=
  match Memory.byteAt m a, Memory.byteAt m (a + 1), Memory.byteAt m (a + 2) with
  | some b0, some b1, some b2 => some (b0 ++ b1 ++ b2)
  | _, _, _ => none

end Sys2Proof.Machine
end

