-- ==== Sys2Proof/Machine/Rounding.lean ====
section
/-! DEFINITION. `RoundOut` (R5, D6) and the binary64 image of a value (R130, D5). -/

namespace Sys2Proof.Machine

/-- The integer nearest to `x`, ties to even (D6). -/
def roundHalfEven (x : Rat) : Int :=
  let f := x.floor
  if x - f < 1 / 2 then f
  else if 1 / 2 < x - f then f + 1
  else if f % 2 = 0 then f
  else f + 1

/-- The exponent of the `OUT_FMT` binade of a positive value: that of its leading bit, at least the smallest
normal exponent (G4). -/
def binadeExp (q : Rat) : Int := max (Int.log 2 q) Config.outMinExp

/-- One unit in the last place of `OUT_FMT` in the binade of a positive value. -/
def ulp (q : Rat) : Rat := (2 : Rat) ^ (binadeExp q - (Config.outPrecision - 1))

/-- `RoundOut` on a magnitude: round to nearest, ties to even, in the precision of `OUT_FMT` (R5, D6; log 4).
Its result is a rational; a magnitude beyond the largest finite value of the format is rounded in the same
precision, which no value RH supplies needs (R143). -/
def roundOut (q : Rat) : Rat :=
  if q = 0 then 0 else roundHalfEven (q / ulp q) * ulp q

/-- Sign and exponent-and-fraction part packed into a binary64 word (R130, G4). -/
def packImage (s : Bool) (rest : Nat) : BitVec 64 := BitVec.ofBool s ++ BitVec.ofNat 63 rest

/-- The binary64 word of an infinity without its sign (R130). -/
def imageInf : Nat := 0x7FF0000000000000

/-- The exponent-and-fraction part of the image of a magnitude that is representable in `OUT_FMT`: the integer
significand, with the leading bit replaced by the biased exponent when the value is normal (R130, G4). -/
def imageMagnitude (q : Rat) : Nat :=
  let e := binadeExp q
  let n := (q / ulp q).floor.toNat
  if Config.outMaxExp < e then imageInf
  else if n < 2 ^ 52 then n
  else (e + Config.outMaxExp).toNat * 2 ^ 52 + (n - 2 ^ 52)

/-- The binary64 image of a value (R130). A finite magnitude is brought to the format by `RoundOut`, which
changes no value of CORE (R129, R141 to R143). -/
def image64 : FVal → BitVec 64
  | .finite s q => packImage s (imageMagnitude (roundOut q))
  | .posInf => 0x7FF0000000000000
  | .negInf => 0xFFF0000000000000
  | .nan => 0x7FF8000000000000

end Sys2Proof.Machine
end

