-- ==== Sys2Proof/Machine/Operands.lean ====
section
/-! DEFINITION. The operand forms (R86) and the exact values the micro-operations compute from them
(R103, R120 to R126, R141 to R143); the layout of the payload (R72, R73, R78). -/

namespace Sys2Proof.Machine

/-- `sext_16`: subtract 65536 if the high bit is set (R74, R103). -/
def signed16 (u : Half) : Int :=
  if u.getLsbD 15 then (u.toNat : Int) - 65536 else (u.toNat : Int)

/-- A fixed-point field: the integer over the scale, the sign apart; zero has sign 0 (R141, R142). -/
def fixedPoint (scale : Nat) (i : Int) : FVal :=
  if 0 ≤ i then .finite false ((i : Rat) / scale) else .finite true ((-i : Rat) / scale)

/-- A voltage: `i / 4096` (R141). -/
def voltage (i : Int) : FVal := fixedPoint Config.vScale i

/-- A temperature: `i / 256` (R142). -/
def temperature (i : Int) : FVal := fixedPoint Config.tScale i

/-- A relative humidity: the exact quotient `u * 100 / 65535`, rounded once (R143). -/
def humidity (u : Half) : FVal :=
  .finite false (roundOut (((u.toNat * Config.rhMul : Nat) : Rat) / (Config.rhDiv : Nat)))

/-- Step 5 of CFDEC: `(M / 65536) * 2^(E - 63)` (R125). -/
def cfScale (mantissa : Nat) (exponent : Int) : Rat :=
  (mantissa : Rat) / 65536 * (2 : Rat) ^ (exponent - Config.expBias)

/-- Step 2 of CFDEC, mantissa zero: the sign is taken from bit 23 (R122). -/
def cfInfinity (sgn : Bool) : FVal := if sgn then .negInf else .posInf

/-- Steps 3, 5, 6 of CFDEC: a normalized value; the decoder supplies the leading one (R123, R125, R126). -/
def cfNormal (sgn : Bool) (e : BitVec 7) (m : Half) : FVal :=
  .finite sgn (cfScale (m.toNat + 0x10000) e.toNat)

/-- Steps 4, 5, 6 of CFDEC: a denormal, exponent 1 for the scaling; zero keeps its sign (R124 to R126). -/
def cfDenormal (sgn : Bool) (m : Half) : FVal := .finite sgn (cfScale m.toNat 1)

/-- CFDEC (R120): the six steps on a 24-bit word. -/
def cfDecode (w : Word24) : FVal :=
  if cfExp w = 0x7F then
    if cfMant w = 0 then cfInfinity (cfSign w) else .nan
  else if cfExp w ≠ 0 then cfNormal (cfSign w) (cfExp w) (cfMant w)
  else cfDenormal (cfSign w) (cfMant w)

/-- Payload bytes of field group `k` (R72, R73). -/
def groupWidth (k : Fin 7) : Nat :=
  match k with
  | 0 => 2
  | 1 => 2
  | 2 => 1
  | 3 => 4
  | 4 => 3
  | 5 => 2
  | 6 => 2

/-- Bytes group `k` takes in a frame with bitmap `b` (R78). -/
def groupBytes (b : Byte) (k : Fin 7) : Nat := if b.getLsbD k.val then groupWidth k else 0

/-- Total bytes of the groups below `k` in a list of groups. -/
def bytesBelow (b : Byte) (k : Nat) : List (Fin 7) → Nat
  | [] => 0
  | j :: js => (if j.val < k then groupBytes b j else 0) + bytesBelow b k js

/-- `pos(k, b)`: the offset of group `k` (R174). -/
def groupPos (k : Nat) (b : Byte) : Nat := 2 + bytesBelow b k [0, 1, 2, 3, 4, 5, 6]

/-- `Need(b)`: the number of bytes a frame with bitmap `b` needs (R78). -/
def need (b : Byte) : Nat := groupPos 7 b

/-- The bitmap bit that gates a record register (R24, R31). -/
def Field.gate : Field → Fin 7
  | .batteryVoltage => 0
  | .busVoltage => 1
  | .bootCount => 2
  | .temperatureC => 3
  | .humidityPct => 3
  | .dewpointC => 3
  | .heatIndexC => 3
  | .lux => 4
  | .probeOneTemperatureC => 5
  | .probeTwoTemperatureC => 6

/-- The eight registers of CORE; the other two need an attached Derive function (R24, R31). -/
def Field.core : Field → Bool
  | .batteryVoltage => true
  | .busVoltage => true
  | .bootCount => true
  | .temperatureC => true
  | .humidityPct => true
  | .dewpointC => false
  | .heatIndexC => false
  | .lux => true
  | .probeOneTemperatureC => true
  | .probeTwoTemperatureC => true

end Sys2Proof.Machine
end

