-- ==== Sys2Proof/Machine/Ops.lean ====
section
/-! DEFINITION. The operations the meanings share: register writes, reading at the cursor with its bounds test
(R100), the next-state function (R165), the three ends of a decode (R173), taking OutOfBounds (R213) and START
(R241). -/

namespace Sys2Proof.Machine

/-- Write `OFF`. -/
def State.setOff (s : State) (n : Nat) : State := { s with off := n }

/-- Write `BM` (R23). -/
def State.setBm (s : State) (b : BitVec 8) : State := { s with bm := b }

/-- Write record registers, and with them their presence bits (R24, R25). -/
def State.setRecord (s : State) (r : Record) : State := { s with record := r }

/-- Hold what a micro-operation returns (log 9). -/
def State.setRet (s : State) (v : RetVal) : State := { s with ret := some v }

/-- `ST` becomes a state in which the decode goes on. -/
def State.setSt (s : State) (p : PState) : State := { s with st := p }

/-- Entering `Done` (R173). -/
def State.enterDone (s : State) : State :=
  { s with st := .done, status := some .record, offFinal := some s.off }

/-- The routing outcome: `ST`, `STATUS` and `OFF_FINAL`, nothing else (R162, R163, R217). -/
def State.enterNotMine (s : State) : State :=
  { s with st := .notMine, status := some .notMine, offFinal := some 0 }

/-- Taking OutOfBounds: the abort of the whole decode (R213, R214, R216). `OFF` is where the failing read began
(R106, R212); the width the raise carries is not kept. -/
def State.takeOutOfBounds (s : State) : State :=
  { s with
    st := .failed
    status := some .decodeError
    offFinal := some s.off
    diagCause := some .outOfBounds
    diagCh := some s.ch
    diagTagValid := some (decide (1 ≤ s.off))
    diagTag := if 1 ≤ s.off then Memory.byteAt s.mem 0 else none
    record := Record.empty }

/-- `Next(k, b)` (R165). -/
def nextState (k : Nat) (b : Byte) : PState :=
  match firstGroup k b with
  | some j => .field j
  | none => .done

/-- `ST <- Next(k, BM)`, with what entering `Done` does (R165, R173). -/
def State.enterNext (s : State) (k : Nat) : State :=
  match nextState k s.bm with
  | .done => s.enterDone
  | p => s.setSt p

/-- How an operation inside a step ends. -/
inductive OpResult (α : Type) where
  /-- It returns a value; the state holds its cursor advance. -/
  | ok (v : α) (s : State)
  /-- `raise OutOfBounds(OFF, n)` in the given state: nothing after it is performed (R7, R100). -/
  | raised (n : Nat) (s : State)
  /-- The buffer does not hold a byte below `LEN` (log 10). -/
  | stuck (f : Fault)
  deriving DecidableEq, Repr

/-- Apply a pure conversion to what an operation returns. -/
def OpResult.map {α β : Type} (f : α → β) : OpResult α → OpResult β
  | .ok v s => .ok (f v) s
  | .raised n s => .raised n s
  | .stuck e => .stuck e

/-- The rest of a step after an operation: go on with the value, or take the exception (R213). -/
def OpResult.finish {α : Type} (r : OpResult α)
    (k : α → State → Host.Outcome State Fault Refusal) : Host.Outcome State Fault Refusal :=
  match r with
  | .ok v s => k v s
  | .raised _ s => .next s.takeOutOfBounds
  | .stuck e => .fault e

/-- A read of `n` bytes at the cursor: the bounds test over the naturals, all or nothing; then the bytes, and
`OFF` advances by exactly `n` (R100, R106, R107). -/
def readAt {α : Type} (n : Nat) (assemble : Memory → Nat → Option α) (s : State) : OpResult α :=
  if s.off + n ≤ s.len then
    match assemble s.mem s.off with
    | some v => .ok v (s.setOff (s.off + n))
    | none => .stuck (.absentByte s.off)
  else .raised n s

/-- RDU8 as an operation of a step (R101). -/
def readU8 (s : State) : OpResult Byte := readAt 1 memRead1 s

/-- RDU16 as an operation of a step (R102). -/
def readU16 (s : State) : OpResult Half := readAt 2 memRead2 s

/-- RDI16 as an operation of a step: RDU16, then `sext_16` (R103). -/
def readI16 (s : State) : OpResult Int := (readU16 s).map signed16

/-- RDU24 as an operation of a step (R104). -/
def readU24 (s : State) : OpResult Word24 := readAt 3 memRead3 s

/-- VOLT as an operation of a step (R141). -/
def readVolt (s : State) : OpResult FVal := (readI16 s).map voltage

/-- TEMP as an operation of a step (R142). -/
def readTemp (s : State) : OpResult FVal := (readI16 s).map temperature

/-- RH as an operation of a step (R143). -/
def readRh (s : State) : OpResult FVal := (readU16 s).map humidity

/-- LUX as an operation of a step (R144). -/
def readLux (s : State) : OpResult FVal := (readU24 s).map cfDecode

/-- BOOT as an operation of a step (R145). -/
def readBoot (s : State) : OpResult Byte := readU8 s

/-- A micro-operation performed on its own: its returned value is held for its invoker (log 9). -/
def OpResult.hold {α : Type} (tag : α → RetVal) (r : OpResult α) : Host.Outcome State Fault Refusal :=
  r.finish fun v s => .next (s.setRet (tag v))

/-- The two writes of FIELD3 and, when a Derive function is attached, the derived ones; an absent heat index
leaves its register without a value (R169, R179). -/
def writeClimate (attached : Bool) (t rh : FVal) (r : Record) : Record :=
  let r := { r with temperatureC := some t, humidityPct := some rh }
  if attached then
    match derive t rh with
    | (d, some h) => { r with dewpointC := some d, heatIndexC := some h }
    | (d, none) => { r with dewpointC := some d }
  else r

/-- A decode is running: neither `Idle` nor a terminal state (R22, R173). -/
def PState.running : PState → Bool
  | .idle => false
  | .awaitingTag => true
  | .awaitingBitmap => true
  | .field _ => true
  | .done => false
  | .notMine => false
  | .failed => false

/-- START on a call: the inputs are taken and every register a decode reads or an output shows is cleared; `BM`
is not touched (R241, R30; log 6). -/
def State.start (s : State) (c : Call) : State :=
  { s with
    call := none
    mem := Memory.ofBytes c.bytes
    len := c.bytes.length
    ch := c.ch
    st := .awaitingTag
    off := 0
    record := Record.empty
    status := none
    offFinal := none
    diagCh := none
    diagTagValid := none
    diagTag := none
    diagCause := none }

/-- A presented call: START in `Idle` or a terminal state; refused while a decode is running (R241, U9). -/
def acceptCall (c : Call) (s : State) : Host.Outcome State Fault Refusal :=
  if s.st.running then .refused .startWhileRunning else .next (s.start c)

end Sys2Proof.Machine
end

