-- ==== Sys2Proof/Machine/Adapters.lean ====
section
/-! DEFINITION. The scaled-value adapters (42_scaled_adapters.md): each calls one reader at the cursor and returns
one value (R140). -/

namespace Sys2Proof.Machine

/-- VOLT (R141). -/
def execVolt (s : State) : Host.Outcome State Fault Refusal := (readVolt s).hold .fval

/-- TEMP (R142). -/
def execTemp (s : State) : Host.Outcome State Fault Refusal := (readTemp s).hold .fval

/-- RH (R143). -/
def execRh (s : State) : Host.Outcome State Fault Refusal := (readRh s).hold .fval

/-- LUX (R144). -/
def execLux (s : State) : Host.Outcome State Fault Refusal := (readLux s).hold .fval

/-- BOOT (R145): an integer, not a tagged value. -/
def execBoot (s : State) : Host.Outcome State Fault Refusal := (readBoot s).hold .u8

end Sys2Proof.Machine
end

