-- ==== Sys2Proof/Machine/CompactFloat.lean ====
section
/-! DEFINITION. The compact float decoder and its classes (41_compact_float.md): pure functions of the word, total,
raising nothing, touching no register of the block (R120, R127). -/

namespace Sys2Proof.Machine

/-- CFDEC (R120). -/
def execCfdec (w : Word24) (s : State) : Host.Outcome State Fault Refusal :=
  .next (s.setRet (.fval (cfDecode w)))

/-- CFDEC.INF (R122). -/
def execCfdecInf (sgn : Bool) (s : State) : Host.Outcome State Fault Refusal :=
  .next (s.setRet (.fval (cfInfinity sgn)))

/-- CFDEC.NAN: the sign and the mantissa are not carried into the result (R122). -/
def execCfdecNan (s : State) : Host.Outcome State Fault Refusal := .next (s.setRet (.fval .nan))

/-- CFDEC.NORM (R123, R125, R126). -/
def execCfdecNorm (sgn : Bool) (e : BitVec 7) (m : Half) (s : State) : Host.Outcome State Fault Refusal :=
  .next (s.setRet (.fval (cfNormal sgn e m)))

/-- CFDEC.DEN (R124, R125, R126). -/
def execCfdecDen (sgn : Bool) (m : Half) (s : State) : Host.Outcome State Fault Refusal :=
  .next (s.setRet (.fval (cfDenormal sgn m)))

end Sys2Proof.Machine
end

