-- ==== Sys2Proof/Machine/Parser.lean ====
section
/-! DEFINITION. The frame steps (43_frame_parser.md). -/

namespace Sys2Proof.Machine

/-- CHGATE: a channel that is not the instance's ends the decode in `NotMine`; no byte is inspected. On a match
the same step goes on with TAGCHK (R162). -/
def execChgate (s : State) : Host.Outcome State Fault Refusal :=
  if s.ch ≠ s.cfg.channelId then .next s.enterNotMine else .next s

/-- TAGCHK: inspect byte 0; on a mismatch it is not consumed (R163). -/
def execTagchk (s : State) : Host.Outcome State Fault Refusal :=
  if s.len < s.off + 1 then .next s.takeOutOfBounds
  else
    match memRead1 s.mem 0 with
    | none => .fault (.absentByte 0)
    | some t =>
      if t ≠ Config.tag then .next s.enterNotMine
      else .next ((s.setOff 1).setSt .awaitingBitmap)

/-- BMLOAD (R164). -/
def execBmload (s : State) : Host.Outcome State Fault Refusal :=
  (readU8 s).finish fun b t => .next ((t.setBm b).enterNext 0)

/-- FIELD0: battery voltage (R166). -/
def execField0 (s : State) : Host.Outcome State Fault Refusal :=
  (readVolt s).finish fun v t =>
    .next ((t.setRecord { t.record with batteryVoltage := some v }).enterNext 1)

/-- FIELD1: bus voltage (R167). -/
def execField1 (s : State) : Host.Outcome State Fault Refusal :=
  (readVolt s).finish fun v t =>
    .next ((t.setRecord { t.record with busVoltage := some v }).enterNext 2)

/-- FIELD2: boot counter (R168). -/
def execField2 (s : State) : Host.Outcome State Fault Refusal :=
  (readBoot s).finish fun v t =>
    .next ((t.setRecord { t.record with bootCount := some v }).enterNext 3)

/-- FIELD3: temperature, then humidity; both reads come before any write (R169, R179). -/
def execField3 (s : State) : Host.Outcome State Fault Refusal :=
  (readTemp s).finish fun v t =>
    (readRh t).finish fun h u =>
      .next ((u.setRecord (writeClimate u.cfg.deriveAttached v h u.record)).enterNext 4)

/-- FIELD4: light level; no value of it is an error (R170, R144). -/
def execField4 (s : State) : Host.Outcome State Fault Refusal :=
  (readLux s).finish fun v t =>
    .next ((t.setRecord { t.record with lux := some v }).enterNext 5)

/-- FIELD5: probe-one temperature (R171). -/
def execField5 (s : State) : Host.Outcome State Fault Refusal :=
  (readTemp s).finish fun v t =>
    .next ((t.setRecord { t.record with probeOneTemperatureC := some v }).enterNext 6)

/-- FIELD6: probe-two temperature (R172). -/
def execField6 (s : State) : Host.Outcome State Fault Refusal :=
  (readTemp s).finish fun v t =>
    .next ((t.setRecord { t.record with probeTwoTemperatureC := some v }).enterNext 7)

end Sys2Proof.Machine
end

