-- ==== Sys2Proof/Machine/Readers.lean ====
section
/-! DEFINITION. The primitive field readers (40_primitive_readers.md). -/

namespace Sys2Proof.Machine

/-- RDU8 (R101). -/
def execRdu8 (s : State) : Host.Outcome State Fault Refusal := (readU8 s).hold .u8

/-- RDU16 (R102). -/
def execRdu16 (s : State) : Host.Outcome State Fault Refusal := (readU16 s).hold .u16

/-- RDI16 (R103). -/
def execRdi16 (s : State) : Host.Outcome State Fault Refusal := (readI16 s).hold .i16

/-- RDU24 (R104). -/
def execRdu24 (s : State) : Host.Outcome State Fault Refusal := (readU24 s).hold .u24

end Sys2Proof.Machine
end

