-- ==== Sys2Proof/Machine/Dispatch.lean ====
section
/-! DEFINITION. One arm for each instruction (R85). -/

namespace Sys2Proof.Machine

def exec (i : Instr) (s : State) : Host.Outcome State Fault Refusal :=
  match i with
  | .chgate => Sys2Proof.Machine.execChgate s
  | .tagchk => Sys2Proof.Machine.execTagchk s
  | .bmload => Sys2Proof.Machine.execBmload s
  | .field0 => Sys2Proof.Machine.execField0 s
  | .field1 => Sys2Proof.Machine.execField1 s
  | .field2 => Sys2Proof.Machine.execField2 s
  | .field3 => Sys2Proof.Machine.execField3 s
  | .field4 => Sys2Proof.Machine.execField4 s
  | .field5 => Sys2Proof.Machine.execField5 s
  | .field6 => Sys2Proof.Machine.execField6 s
  | .rdu8 => Sys2Proof.Machine.execRdu8 s
  | .rdu16 => Sys2Proof.Machine.execRdu16 s
  | .rdi16 => Sys2Proof.Machine.execRdi16 s
  | .rdu24 => Sys2Proof.Machine.execRdu24 s
  | .cfdec w => Sys2Proof.Machine.execCfdec w s
  | .cfdecInf sgn => Sys2Proof.Machine.execCfdecInf sgn s
  | .cfdecNan _ _ => Sys2Proof.Machine.execCfdecNan s
  | .cfdecNorm sgn e m => Sys2Proof.Machine.execCfdecNorm sgn e m s
  | .cfdecDen sgn m => Sys2Proof.Machine.execCfdecDen sgn m s
  | .volt => Sys2Proof.Machine.execVolt s
  | .temp => Sys2Proof.Machine.execTemp s
  | .rh => Sys2Proof.Machine.execRh s
  | .lux => Sys2Proof.Machine.execLux s
  | .boot => Sys2Proof.Machine.execBoot s

end Sys2Proof.Machine
end

