-- ==== Sys2Proof/Machine/Sequencer.lean ====
section
/-! DEFINITION. What one step runs: the automaton of R161, the taking of a call (R241), and the placing of a table
word so that the next step runs it (log 12). -/

namespace Sys2Proof.Machine

/-- The step taken is a function of `ST` alone (R161). -/
def selected : PState → List Instr
  | .idle => []
  | .awaitingTag => [.chgate, .tagchk]
  | .awaitingBitmap => [.bmload]
  | .field k => [fieldInstr k]
  | .done => []
  | .notMine => []
  | .failed => []

/-- Run the operations of one step in order, as long as `ST` is still the state `p` the step leaves: "CHGATE, then
TAGCHK if CHGATE passes" (R161, R162). -/
def runSelected (p : PState) : List Instr → State → Host.Outcome State Fault Refusal
  | [], s => .next s
  | i :: is, s =>
    match exec i s with
    | .next t => if t.st = p then runSelected p is t else .next t
    | .fault f => .fault f
    | .refused r => .refused r

/-- One step: a presented call is taken (START); else the automaton's step. In `Idle` and the terminal states
nothing is enabled and nothing changes (R161, R173, R241; log 11). -/
def stepOnce (s : State) : Host.Outcome State Fault Refusal :=
  match s.call with
  | some c => acceptCall c s
  | none => runSelected s.st (selected s.st) s

/-- The state with a frame in the buffer and the parser about to leave `p` with its cursor at `n`. -/
def State.placeFrame (s : State) (bytes : List Byte) (p : PState) (n : Nat) (b : Byte) : State :=
  { s with call := none, mem := Memory.ofBytes bytes, len := bytes.length, st := p, off := n, bm := b }

/-- The instance and the call have the given channels (log 12). -/
def State.placeChannel (s : State) (own given : Int) : State :=
  { s with ch := given, cfg := { s.cfg with channelId := own } }

/-- The state whose next step runs the word at the given place of a frame (log 12): the gate on a foreign channel;
the tag as byte 0; the bitmap as byte 1; a selecting bitmap with a payload of zeros; an operand in the field group
whose step invokes it. -/
def State.placeWord (s : State) (slot : Slot) (bytes : List Byte) : State :=
  match slot with
  | .gate => (s.placeFrame bytes .awaitingTag 0 s.bm).placeChannel 0 1
  | .tag => (s.placeFrame bytes .awaitingTag 0 s.bm).placeChannel 0 0
  | .bitmap => s.placeFrame (Config.tag :: bytes) .awaitingBitmap 1 s.bm
  | .select k =>
    let b := bytes.headD 0
    s.placeFrame (Config.tag :: b :: List.replicate 16 0) (nextState k b) 2 b
  | .operand .rdu8 => s.placeFrame (Config.tag :: 0x04 :: bytes) (.field 2) 2 0x04
  | .operand .boot => s.placeFrame (Config.tag :: 0x04 :: bytes) (.field 2) 2 0x04
  | .operand .rdu16 => s.placeFrame (Config.tag :: 0x01 :: bytes) (.field 0) 2 0x01
  | .operand .rdi16 => s.placeFrame (Config.tag :: 0x01 :: bytes) (.field 0) 2 0x01
  | .operand .volt => s.placeFrame (Config.tag :: 0x01 :: bytes) (.field 0) 2 0x01
  | .operand .temp => s.placeFrame (Config.tag :: 0x20 :: bytes) (.field 5) 2 0x20
  | .operand .rh => s.placeFrame (Config.tag :: 0x08 :: 0 :: 0 :: bytes) (.field 3) 2 0x08
  | .operand .rdu24 => s.placeFrame (Config.tag :: 0x10 :: bytes) (.field 4) 2 0x10
  | .operand .cfdec => s.placeFrame (Config.tag :: 0x10 :: bytes) (.field 4) 2 0x10
  | .operand .lux => s.placeFrame (Config.tag :: 0x10 :: bytes) (.field 4) 2 0x10
  | .cfClass => s.placeFrame (Config.tag :: 0x10 :: bytes) (.field 4) 2 0x10

/-- A word of opcode_table.json placed for the next step; a width the table does not have changes nothing. -/
def State.placeTableWord (s : State) (nbits w : Nat) : State :=
  match tableSlot nbits w with
  | some slot => s.placeWord slot (bytesOfNat (nbits / 8) w)
  | none => s

end Sys2Proof.Machine
end

