-- ==== Sys2Proof/Machine/Output.lean ====
section
/-! DEFINITION. What the caller sees of a decode: the outcome (R9), the numeric codes (R219). -/

namespace Sys2Proof.Machine

/-- The diagnostic of a truncated frame: the channel and, if byte 0 was read, the tag seen (R214, R27). -/
structure Diag where
  ch : Int
  tag : Option (BitVec 8)
  cause : Cause
  deriving DecidableEq, Repr

/-- The outcome of one decode: exactly one of three, never conflated (R9). -/
inductive Decoded where
  | record (r : Record)
  | notMine
  | decodeError (d : Diag)
  deriving DecidableEq, Repr

/-- An outcome with the offset at which the decode ended (`OFF_FINAL`, R21). -/
structure Result where
  outcome : Decoded
  offFinal : Nat
  deriving DecidableEq, Repr

/-- What a state presents on its output registers, if they are valid: `STATUS` says which of them to read (R26,
R173, R243 duty 4). -/
def State.result (s : State) : Option Result :=
  match s.status, s.offFinal with
  | some .record, some n => some ⟨.record s.record, n⟩
  | some .notMine, some n => some ⟨.notMine, n⟩
  | some .decodeError, some n =>
    match s.diagCh, s.diagCause with
    | some c, some cause =>
      some ⟨.decodeError ⟨c, if s.diagTagValid = some true then s.diagTag else none, cause⟩, n⟩
    | _, _ => none
  | _, _ => none

/-- The numeric code of `STATUS` (R219, D16). -/
def statusCode : Status → Nat
  | .record => 0
  | .notMine => 1
  | .decodeError => 2

/-- The numeric code of `DIAG_CAUSE`: 0 is "no cause" (R219, D16). -/
def causeCode : Option Cause → Nat
  | none => 0
  | some .outOfBounds => 1

end Sys2Proof.Machine
end

