-- ==== Sys2Proof/Machine/Whole.lean ====
section
/-! DEFINITION. The whole decode as one function of its inputs (R174): a second description, which the step machine
must agree with. It reads the byte sequence directly, by the offsets of the groups. -/

namespace Sys2Proof.Machine

/-- `U8(a)` on a byte sequence (R174). Only evaluated where the sequence has the byte. -/
def frameU8 (bs : List Byte) (a : Nat) : Byte := bs.getD a 0

/-- `U16(a)` (R174). -/
def frameU16 (bs : List Byte) (a : Nat) : Half := frameU8 bs a ++ frameU8 bs (a + 1)

/-- `I16(a)` (R174). -/
def frameI16 (bs : List Byte) (a : Nat) : Int := signed16 (frameU16 bs a)

/-- `U24(a)` (R174). -/
def frameU24 (bs : List Byte) (a : Nat) : Word24 := frameU8 bs a ++ frameU8 bs (a + 1) ++ frameU8 bs (a + 2)

/-- A key is present when the bitmap bit is set (R174). -/
def whenBit {α : Type} (b : Byte) (k : Nat) (v : α) : Option α := if b.getLsbD k then some v else none

/-- The record of an untruncated frame with bitmap `b` (R174). -/
def frameRecord (attached : Bool) (bs : List Byte) (b : Byte) : Record :=
  let t := temperature (frameI16 bs (groupPos 3 b))
  let h := humidity (frameU16 bs (groupPos 3 b + 2))
  { batteryVoltage := whenBit b 0 (voltage (frameI16 bs (groupPos 0 b)))
    busVoltage := whenBit b 1 (voltage (frameI16 bs (groupPos 1 b)))
    bootCount := whenBit b 2 (frameU8 bs (groupPos 2 b))
    temperatureC := whenBit b 3 t
    humidityPct := whenBit b 3 h
    dewpointC := if attached then whenBit b 3 (derive t h).1 else none
    heatIndexC := if attached then (whenBit b 3 (derive t h).2).join else none
    lux := whenBit b 4 (cfDecode (frameU24 bs (groupPos 4 b)))
    probeOneTemperatureC := whenBit b 5 (temperature (frameI16 bs (groupPos 5 b)))
    probeTwoTemperatureC := whenBit b 6 (temperature (frameI16 bs (groupPos 6 b))) }

/-- The payload reads of a frame with bitmap `b`, in order: start offset and width; group 3 is two reads (R174). -/
def frameReads (b : Byte) : List (Nat × Nat) :=
  ([0, 1, 2, 3, 4, 5, 6] : List (Fin 7)).flatMap fun k =>
    if b.getLsbD k.val then
      if k = 3 then [(groupPos 3 b, 2), (groupPos 3 b + 2, 2)] else [(groupPos k.val b, groupWidth k)]
    else []

/-- `FailOff(b, LEN)`: the start offset of the first read whose end offset exceeds `LEN` (R174); `none` when no
read fails. -/
def failOff (b : Byte) (len : Nat) : Option Nat :=
  ((frameReads b).find? fun r => decide (len < r.1 + r.2)).map Prod.fst

/-- `decode(BUF, LEN, CH)` with `LEN` the number of bytes of `BUF` (R174, R160). -/
def decodeFrame (cfg : Cfg) (bs : List Byte) (ch : Int) : Result :=
  if ch ≠ cfg.channelId then ⟨.notMine, 0⟩
  else if bs.length = 0 then ⟨.decodeError ⟨ch, none, .outOfBounds⟩, 0⟩
  else if frameU8 bs 0 ≠ Config.tag then ⟨.notMine, 0⟩
  else if bs.length = 1 then ⟨.decodeError ⟨ch, some Config.tag, .outOfBounds⟩, 1⟩
  else
    match failOff (frameU8 bs 1) bs.length with
    | some n => ⟨.decodeError ⟨ch, some Config.tag, .outOfBounds⟩, n⟩
    | none => ⟨.record (frameRecord cfg.deriveAttached bs (frameU8 bs 1)), need (frameU8 bs 1)⟩

end Sys2Proof.Machine
end

