-- ==== Sys2Proof/Safety.lean ====
section
/-! DEFINITION. What claims call a good state: the invariants of R32 and R33 with what the header steps established,
and the order of the parser states (R22, R247). -/

namespace Sys2Proof

open Sys2Proof.Machine

/-- The order of the parser states: every transition goes forward in it; the three terminal states share a place
(R22). -/
def stateRank : PState → Nat
  | .idle => 0
  | .awaitingTag => 1
  | .awaitingBitmap => 2
  | .field k => 3 + k.val
  | .done => 10
  | .notMine => 10
  | .failed => 10

/-- The terminal states (R173). -/
def isTerminal : PState → Bool
  | .done => true
  | .notMine => true
  | .failed => true
  | .idle => false
  | .awaitingTag => false
  | .awaitingBitmap => false
  | .field _ => false

/-- Where the cursor is in each parser state (R32, R33); in `Failed` it is where the failing read began, which is
inside the buffer and within the first 18 bytes. -/
def CursorOk (s : State) : Prop :=
  s.off ≤ s.len ∧ s.off ≤ Config.maxUsed ∧
    match s.st with
    | .idle => s.off = 0
    | .awaitingTag => s.off = 0
    | .awaitingBitmap => s.off = 1
    | .field k => s.bm.getLsbD k.val = true ∧ s.off = groupPos k.val s.bm
    | .done => s.off = need s.bm
    | .notMine => s.off = 0
    | .failed => True

/-- Which record registers hold a value when the groups below `k` have been decoded: those of CORE exactly as the
bitmap says; the derived ones only with a Derive function attached (R25, R31, R33). -/
def PresentBelow (s : State) (k : Nat) : Prop :=
  (∀ f : Field, f.core = true →
    s.record.valid f = (decide (f.gate.val < k) && s.bm.getLsbD f.gate.val)) ∧
  s.record.valid .dewpointC = (s.cfg.deriveAttached && decide (3 < k) && s.bm.getLsbD 3) ∧
  (s.record.valid .heatIndexC = true → s.record.valid .dewpointC = true)

/-- The record registers in each parser state (R25, R33, R216). -/
def RecordOk (s : State) : Prop :=
  match s.st with
  | .idle => s.record = Record.empty
  | .awaitingTag => s.record = Record.empty
  | .awaitingBitmap => s.record = Record.empty
  | .field k => PresentBelow s k.val
  | .done => PresentBelow s 7
  | .notMine => s.record = Record.empty
  | .failed => s.record = Record.empty

/-- The diagnostic registers hold no value (R30). -/
def NoDiagnostic (s : State) : Prop :=
  s.diagCh = none ∧ s.diagTagValid = none ∧ s.diagTag = none ∧ s.diagCause = none

/-- The output registers are valid exactly in the terminal states, the diagnostic ones exactly in `Failed` (R26,
R27, R214). -/
def OutputsOk (s : State) : Prop :=
  match s.st with
  | .done => s.status = some .record ∧ s.offFinal = some s.off ∧ NoDiagnostic s
  | .notMine => s.status = some .notMine ∧ s.offFinal = some s.off ∧ NoDiagnostic s
  | .failed => s.status = some .decodeError ∧ s.offFinal = some s.off ∧ s.diagCh = some s.cfg.channelId ∧
      s.diagTagValid = some (decide (1 ≤ s.off)) ∧
      s.diagTag = (if 1 ≤ s.off then some Config.tag else none) ∧ s.diagCause = some .outOfBounds
  | .idle => s.status = none ∧ s.offFinal = none ∧ NoDiagnostic s
  | .awaitingTag => s.status = none ∧ s.offFinal = none ∧ NoDiagnostic s
  | .awaitingBitmap => s.status = none ∧ s.offFinal = none ∧ NoDiagnostic s
  | .field _ => s.status = none ∧ s.offFinal = none ∧ NoDiagnostic s

/-- The channel and the tag were accepted (R162, R163). -/
def HeaderAccepted (s : State) : Prop :=
  s.ch = s.cfg.channelId ∧ Memory.byteAt s.mem 0 = some Config.tag

/-- What the header steps established, in each parser state (R162 to R164). -/
def HeaderOk (s : State) : Prop :=
  match s.st with
  | .awaitingBitmap => HeaderAccepted s
  | .field _ => HeaderAccepted s ∧ Memory.byteAt s.mem 1 = some s.bm
  | .done => HeaderAccepted s ∧ Memory.byteAt s.mem 1 = some s.bm
  | .failed => s.ch = s.cfg.channelId
  | .idle => True
  | .awaitingTag => True
  | .notMine => True

/-- The invariant of the block: the buffer holds exactly its `LEN` bytes (R50), the cursor is where the parser state
says (R32, R33), and the registers hold what they should. -/
def Inv (s : State) : Prop :=
  Memory.complete s.mem s.len = true ∧ CursorOk s ∧ RecordOk s ∧ OutputsOk s ∧ HeaderOk s

/-- No operation changes the instance's parameters, the inputs of the decode, or the presented call (R20, R28,
R56). -/
def SameInputs (s t : State) : Prop :=
  t.cfg = s.cfg ∧ t.call = s.call ∧ t.mem = s.mem ∧ t.len = s.len ∧ t.ch = s.ch

/-- What OutOfBounds raised in `s` leaves (R213, R214, R216): every register the rules name, and that nothing else
changed. -/
def AbortedFrom (s t : State) : Prop :=
  t.st = .failed ∧ t.status = some .decodeError ∧ t.offFinal = some s.off ∧ t.off = s.off ∧
  t.diagCause = some .outOfBounds ∧ t.diagCh = some s.ch ∧
  t.diagTagValid = some (decide (1 ≤ s.off)) ∧
  t.diagTag = (if 1 ≤ s.off then Memory.byteAt s.mem 0 else none) ∧
  (∀ f, t.record.valid f = false) ∧ t.record = Record.empty ∧
  t.bm = s.bm ∧ t.ret = s.ret ∧ SameInputs s t

/-- The diagnostic registers of two states agree (R27). -/
def SameDiagnostic (s t : State) : Prop :=
  t.diagCh = s.diagCh ∧ t.diagTagValid = s.diagTagValid ∧ t.diagTag = s.diagTag ∧ t.diagCause = s.diagCause

/-- The fixed-point value of two bytes, in the arithmetic of R103, R141 and R142: the unsigned number over the
scale, or, when the high bit is set, 65536 less it with sign 1. -/
def fixedI16 (scale : Nat) (b0 b1 : Byte) : FVal :=
  if b0.toNat * 256 + b1.toNat < 32768 then
    .finite false (((b0.toNat * 256 + b1.toNat : Nat) : Rat) / scale)
  else .finite true (((65536 - (b0.toNat * 256 + b1.toNat) : Nat) : Rat) / scale)

/-- The humidity of two bytes: `RoundOut(u * 100 / 65535)` (R143). -/
def humidityU16 (b0 b1 : Byte) : FVal :=
  .finite false (roundOut ((((b0.toNat * 256 + b1.toNat) * 100 : Nat) : Rat) / 65535))

/-- The sign of a compact float word, in arithmetic: `w div 2^23` (R121). -/
def cfS (w : Nat) : Nat := w / 8388608

/-- The exponent of a compact float word, in arithmetic: `(w div 65536) mod 128` (R121). -/
def cfE (w : Nat) : Nat := w / 65536 % 128

/-- The mantissa of a compact float word, in arithmetic: `w mod 65536` (R121). -/
def cfM (w : Nat) : Nat := w % 65536

/-- The value of a compact float word by the table of its classes (R81). -/
def cfValue (w : Nat) : FVal :=
  if cfE w = 127 then
    if cfM w = 0 then (if cfS w = 0 then .posInf else .negInf) else .nan
  else if cfE w = 0 then .finite (decide (cfS w = 1)) ((cfM w : Rat) * (2 : Rat) ^ (-78 : Int))
  else .finite (decide (cfS w = 1)) (((65536 + cfM w : Nat) : Rat) * (2 : Rat) ^ ((cfE w : Int) - 79))

/-- The binary64 word of a compact float word by the table of R130. -/
def cfImage (w : Nat) : Nat :=
  if cfE w = 127 then
    if cfM w = 0 then (if cfS w = 0 then 0x7FF0000000000000 else 0xFFF0000000000000) else 0x7FF8000000000000
  else if cfE w = 0 then
    if cfM w = 0 then cfS w * 2 ^ 63
    else cfS w * 2 ^ 63 + ((cfM w).log2 + 945) * 2 ^ 52 + (cfM w - 2 ^ (cfM w).log2) * 2 ^ (52 - (cfM w).log2)
  else cfS w * 2 ^ 63 + (cfE w + 960) * 2 ^ 52 + cfM w * 2 ^ 36

/-- How far an operation moves the cursor when it does not fail (R21, R106, R73); TAGCHK, which sets `OFF` to 1, is
said apart. -/
def cursorWidth : Instr → Nat
  | .chgate => 0
  | .tagchk => 1
  | .bmload => 1
  | .field0 => 2
  | .field1 => 2
  | .field2 => 1
  | .field3 => 4
  | .field4 => 3
  | .field5 => 2
  | .field6 => 2
  | .rdu8 => 1
  | .rdu16 => 2
  | .rdi16 => 2
  | .rdu24 => 3
  | .cfdec _ => 0
  | .cfdecInf _ => 0
  | .cfdecNan _ _ => 0
  | .cfdecNorm _ _ _ => 0
  | .cfdecDen _ _ => 0
  | .volt => 2
  | .temp => 2
  | .rh => 2
  | .lux => 3
  | .boot => 1

/-- The frame steps; the others are micro-operations (R10). -/
def isFrameStep : Instr → Bool
  | .chgate => true
  | .tagchk => true
  | .bmload => true
  | .field0 => true
  | .field1 => true
  | .field2 => true
  | .field3 => true
  | .field4 => true
  | .field5 => true
  | .field6 => true
  | .rdu8 => false
  | .rdu16 => false
  | .rdi16 => false
  | .rdu24 => false
  | .cfdec _ => false
  | .cfdecInf _ => false
  | .cfdecNan _ _ => false
  | .cfdecNorm _ _ _ => false
  | .cfdecDen _ _ => false
  | .volt => false
  | .temp => false
  | .rh => false
  | .lux => false
  | .boot => false

/-- A value a fixed-point register may hold (R24). -/
def IsFixedPoint (scale : Nat) (v : FVal) : Prop := ∃ b0 b1 : Byte, v = fixedI16 scale b0 b1

/-- The exact ranges of the record registers (R24). -/
def RangeOk (s : State) : Prop :=
  (∀ v, s.record.batteryVoltage = some v → IsFixedPoint 4096 v) ∧
  (∀ v, s.record.busVoltage = some v → IsFixedPoint 4096 v) ∧
  (∀ v, s.record.temperatureC = some v → IsFixedPoint 256 v) ∧
  (∀ v, s.record.humidityPct = some v → ∃ b0 b1 : Byte, v = humidityU16 b0 b1) ∧
  (∀ v, s.record.lux = some v → ∃ w : Nat, w < 16777216 ∧ v = cfValue w) ∧
  (∀ v, s.record.probeOneTemperatureC = some v → IsFixedPoint 256 v) ∧
  (∀ v, s.record.probeTwoTemperatureC = some v → IsFixedPoint 256 v)

/-- The record of a decoded temperature and humidity, with what `Derive` gives if one is attached; an absent heat
index leaves its register as it is (R169, R179). -/
def climateRecord (attached : Bool) (t rh : FVal) (r : Record) : Record :=
  { r with
    temperatureC := some t
    humidityPct := some rh
    dewpointC := if attached then some (derive t rh).1 else r.dewpointC
    heatIndexC := if attached then
      (match (derive t rh).2 with
        | some h => some h
        | none => r.heatIndexC) else r.heatIndexC }

/-- The named property R200 allows a claim to assume of an implementation of `Derive`: on the arguments FIELD3
supplies (in °C or in °F) it computes the formulas of 44_derived_quantities.md over the real numbers, each to one part
in a thousand. DESIGN CHOICE (log 24): the tolerance, which the spec leaves open. -/
def DeriveArith.FollowsFormulas (A : DeriveArith) : Prop :=
  (∀ x : Rat, 1 / 100 ≤ x → x ≤ 1 → |(A.ln x : ℝ) - Real.log (x : ℝ)| ≤ 1 / 1000) ∧
  (∀ x : Rat, 0 ≤ x → x ≤ 1 → |(A.sqrt x : ℝ) - Real.sqrt (x : ℝ)| ≤ 1 / 1000) ∧
  (∀ (step : DeriveStep) (exact t rh : Rat), -200 ≤ t → t ≤ 300 → 0 ≤ rh → rh ≤ 100 →
    |A.fl step exact t rh - exact| ≤ max 1 |exact| / 1000)

end Sys2Proof
end

