-- ==== Sys2Proof/Certificates/Slice0/Obligations.lean ====
section
/-! DEFINITION. The statements for the provers, from the numbered rules of spec/. -/

open Sys2Proof Sys2Proof.Machine

/-- Words written out from the encodings decode to their rows (30_encoding.md R71, 30_encoding.md R72,
30_encoding.md R75, 30_encoding.md R81, 30_encoding.md R85). Which place a word of a width is read at is the
model's choice (log 13), and that the tag is 0x2A is the spec's decision D1 (log 2). -/
def Obligations.TableWordsDecodeToTheirRows : Prop :=
  decodeTableWord 8 0x2A = some .tagchk ∧ decodeTableWord 8 0x01 = some .field0 ∧
  decodeTableWord 8 0x02 = some .field1 ∧ decodeTableWord 8 0x04 = some .field2 ∧
  decodeTableWord 8 0x08 = some .field3 ∧ decodeTableWord 8 0x10 = some .field4 ∧
  decodeTableWord 8 0x20 = some .field5 ∧ decodeTableWord 8 0x40 = some .field6 ∧
  decodeTableWord 24 0x7F0000 = some (.cfdecInf false) ∧
  decodeTableWord 24 0xFF0001 = some (.cfdecNan true 0x0001) ∧
  decodeTableWord 24 0x45F400 = some (.cfdecNorm false 0x45 0xF400) ∧
  decodeTableWord 24 0x80FFFF = some (.cfdecDen true 0xFFFF)

/-- Decoding the encoding of a well-formed instruction gives it back (30_encoding.md R70, 30_encoding.md R71,
30_encoding.md R72, 30_encoding.md R73, 30_encoding.md R75, 30_encoding.md R81, 30_encoding.md R85). -/
def Obligations.DecodeOfEncodeIsTheInstruction : Prop :=
  ∀ (i : Instr) (rest : List Byte), i.wellFormed = true →
    decode i.slot (encode i ++ rest) = .ok (i, rest)

/-- Every 24-bit word decodes to one class row, which means what CFDEC of the word means (30_encoding.md R81,
41_compact_float.md R120, 41_compact_float.md R127). -/
def Obligations.EveryCompactWordHasOneClass : Prop :=
  ∀ (b0 b1 b2 : Byte) (rest : List Byte), ∃ i : Instr,
    decode .cfClass (b0 :: b1 :: b2 :: rest) = .ok (i, rest) ∧ i.wellFormed = true ∧
    i.slot = .cfClass ∧ encode i = [b0, b1, b2] ∧ ∀ s : State, exec i s = exec (.cfdec (b0 ++ b1 ++ b2)) s

/-- Next(k, BM) is the least set bit from k to 6, else Done with its outputs (R165). -/
def Obligations.NextStateIsTheLeastSetBit : Prop :=
  ∀ (s : State) (k : Nat), k ≤ 7 →
    ((∃ j : Fin 7, k ≤ j.val ∧ s.bm.getLsbD j.val = true ∧
        (∀ i : Fin 7, k ≤ i.val → i < j → s.bm.getLsbD i.val = false) ∧
        nextState k s.bm = .field j ∧ s.enterNext k = { s with st := .field j }) ∨
      ((∀ j : Fin 7, k ≤ j.val → s.bm.getLsbD j.val = false) ∧ nextState k s.bm = .done ∧
        s.enterNext k = { s with st := .done, status := some .record, offFinal := some s.off })) ∧
    nextState 7 s.bm = .done

/-- MemRead assembles bytes most significant first (R53). -/
def Obligations.FrameReadsAreBigEndian : Prop :=
  (∀ (m : Memory) (a : Nat) (b0 : Byte), Memory.byteAt m a = some b0 → memRead1 m a = some b0) ∧
  (∀ (m : Memory) (a : Nat) (b0 b1 : Byte), Memory.byteAt m a = some b0 → Memory.byteAt m (a + 1) = some b1 →
    ∃ v : Half, memRead2 m a = some v ∧ v.toNat = b0.toNat * 256 + b1.toNat ∧
      ∀ j : Nat, j < 8 → v.getLsbD (8 + j) = b0.getLsbD j ∧ v.getLsbD j = b1.getLsbD j) ∧
  (∀ (m : Memory) (a : Nat) (b0 b1 b2 : Byte), Memory.byteAt m a = some b0 →
    Memory.byteAt m (a + 1) = some b1 → Memory.byteAt m (a + 2) = some b2 →
    ∃ v : Word24, memRead3 m a = some v ∧
      v.toNat = b0.toNat * 65536 + b1.toNat * 256 + b2.toNat ∧
      ∀ j : Nat, j < 8 → v.getLsbD (16 + j) = b0.getLsbD j ∧ v.getLsbD (8 + j) = b1.getLsbD j ∧
        v.getLsbD j = b2.getLsbD j)

/-- START leaves the buffer canonical, complete, and equal to the call's bytes (10_state.md R20, 20_memory.md R50,
70_reset_and_hazards.md R241). The list form of the buffer is the model's choice (log 10). -/
def Obligations.StartPlacesACanonicalFrame : Prop :=
  ∀ (s t : State) (c : Call), s.call = some c → step s = .next t →
    Memory.wf t.mem = true ∧ Memory.complete t.mem t.len = true ∧ t.len = c.bytes.length ∧
    ∀ a : Nat, Memory.byteAt t.mem a = c.bytes[a]?

/-- RDU8 returns the byte at the cursor and advances by one, or raises (40_primitive_readers.md R101). That a one-
byte read has the bounds rule of the others is the spec's decision D8 (log 17); where the returned value is held
is the model's choice (log 9). -/
def Obligations.ByteReaderReturnsTheByte : Prop :=
  (∀ (s : State) (b0 : Byte), s.off + 1 ≤ s.len → Memory.byteAt s.mem s.off = some b0 →
    exec .rdu8 s = .next { s with off := s.off + 1, ret := some (.u8 b0) }) ∧
  (∀ s : State, s.len < s.off + 1 → ∃ t, exec .rdu8 s = .next t ∧ AbortedFrom s t)

/-- RDU16, RDI16, RDU24 return the field and advance by its width, or raise (40_primitive_readers.md R102,
40_primitive_readers.md R103, 40_primitive_readers.md R104). Where the returned value is held is the model's
choice (log 9). -/
def Obligations.WideReadersReturnTheField : Prop :=
  (∀ (s : State) (b0 b1 : Byte), s.off + 2 ≤ s.len → Memory.byteAt s.mem s.off = some b0 →
    Memory.byteAt s.mem (s.off + 1) = some b1 →
    (∃ v : Half, exec .rdu16 s = .next { s with off := s.off + 2, ret := some (.u16 v) } ∧
      v.toNat = b0.toNat * 256 + b1.toNat) ∧
    (∃ i : Int, exec .rdi16 s = .next { s with off := s.off + 2, ret := some (.i16 i) } ∧
      i = (if b0.toNat < 128 then ((b0.toNat * 256 + b1.toNat : Nat) : Int)
        else ((b0.toNat * 256 + b1.toNat : Nat) : Int) - 65536))) ∧
  (∀ (s : State) (b0 b1 b2 : Byte), s.off + 3 ≤ s.len → Memory.byteAt s.mem s.off = some b0 →
    Memory.byteAt s.mem (s.off + 1) = some b1 → Memory.byteAt s.mem (s.off + 2) = some b2 →
    ∃ v : Word24, exec .rdu24 s = .next { s with off := s.off + 3, ret := some (.u24 v) } ∧
      v.toNat = b0.toNat * 65536 + b1.toNat * 256 + b2.toNat) ∧
  (∀ s : State, s.len < s.off + 2 → (∃ t, exec .rdu16 s = .next t ∧ AbortedFrom s t) ∧
    ∃ t, exec .rdi16 s = .next t ∧ AbortedFrom s t) ∧
  (∀ s : State, s.len < s.off + 3 → ∃ t, exec .rdu24 s = .next t ∧ AbortedFrom s t)

/-- VOLT and TEMP return the signed field over 4096 and over 256, exactly, or raise (42_scaled_adapters.md R141,
42_scaled_adapters.md R142). Where the returned value is held is the model's choice (log 9). -/
def Obligations.VoltAndTempAdaptersScaleExactly : Prop :=
  (∀ (s : State) (b0 b1 : Byte), s.off + 2 ≤ s.len → Memory.byteAt s.mem s.off = some b0 →
    Memory.byteAt s.mem (s.off + 1) = some b1 →
    exec .volt s = .next { s with off := s.off + 2, ret := some (.fval (fixedI16 4096 b0 b1)) } ∧
    exec .temp s = .next { s with off := s.off + 2, ret := some (.fval (fixedI16 256 b0 b1)) }) ∧
  (∀ s : State, s.len < s.off + 2 → (∃ t, exec .volt s = .next t ∧ AbortedFrom s t) ∧
    ∃ t, exec .temp s = .next t ∧ AbortedFrom s t) ∧
  (∀ b0 b1 : Byte, ∃ (sgn : Bool) (q : Rat), fixedI16 4096 b0 b1 = .finite sgn q ∧
    -8 ≤ signedValue sgn q ∧ signedValue sgn q ≤ 32767 / 4096 ∧ roundOut q = q ∧ (q = 0 → sgn = false)) ∧
  (∀ b0 b1 : Byte, ∃ (sgn : Bool) (q : Rat), fixedI16 256 b0 b1 = .finite sgn q ∧
    -128 ≤ signedValue sgn q ∧ signedValue sgn q ≤ 32767 / 256 ∧ roundOut q = q ∧ (q = 0 → sgn = false))

/-- LUX returns CFDEC of its three bytes and BOOT its byte, or they raise (42_scaled_adapters.md R144,
42_scaled_adapters.md R145). Where the returned value is held is the model's choice (log 9). -/
def Obligations.LuxAndBootAdaptersReturnTheField : Prop :=
  (∀ (s : State) (b0 b1 b2 : Byte), s.off + 3 ≤ s.len → Memory.byteAt s.mem s.off = some b0 →
    Memory.byteAt s.mem (s.off + 1) = some b1 → Memory.byteAt s.mem (s.off + 2) = some b2 →
    exec .lux s = .next { s with
      off := s.off + 3
      ret := some (.fval (cfValue (b0.toNat * 65536 + b1.toNat * 256 + b2.toNat))) }) ∧
  (∀ s : State, s.len < s.off + 3 → ∃ t, exec .lux s = .next t ∧ AbortedFrom s t) ∧
  (∀ (s : State) (b0 : Byte), s.off + 1 ≤ s.len → Memory.byteAt s.mem s.off = some b0 →
    exec .boot s = .next { s with off := s.off + 1, ret := some (.u8 b0) }) ∧
  (∀ s : State, s.len < s.off + 1 → ∃ t, exec .boot s = .next t ∧ AbortedFrom s t)

/-- RH returns RoundOut(u*100/65535) with sign 0, or raises (42_scaled_adapters.md R143). RoundOut is the spec's
decision D6 (log 4). Where the returned value is held is the model's choice (log 9). -/
def Obligations.HumidityAdapterRoundsOnce : Prop :=
  (∀ (s : State) (b0 b1 : Byte), s.off + 2 ≤ s.len → Memory.byteAt s.mem s.off = some b0 →
    Memory.byteAt s.mem (s.off + 1) = some b1 →
    exec .rh s = .next { s with off := s.off + 2, ret := some (.fval (humidityU16 b0 b1)) }) ∧
  (∀ s : State, s.len < s.off + 2 → ∃ t, exec .rh s = .next t ∧ AbortedFrom s t)

/-- The rounded humidity lies in [0, 100] and is monotone in the raw value (42_scaled_adapters.md R143). It rests on
the decided rounding of D6 (log 4). -/
def Obligations.HumidityLiesInRangeAndIsMonotone : Prop :=
  (∀ b0 b1 : Byte, ∃ q : Rat, humidityU16 b0 b1 = .finite false q ∧ 0 ≤ q ∧ q ≤ 100) ∧
  (∀ (b0 b1 c0 c1 : Byte) (p q : Rat), b0.toNat * 256 + b1.toNat ≤ c0.toNat * 256 + c1.toNat →
    humidityU16 b0 b1 = .finite false p → humidityU16 c0 c1 = .finite false q → p ≤ q)

/-- The humidity is exact exactly for the multiples of 13107 (42_scaled_adapters.md R143). It rests on the decided
format and rounding of D5 and D6 (log 4). -/
def Obligations.HumidityIsExactForSixRawValues : Prop :=
  ∀ b0 b1 : Byte, ∃ q : Rat, humidityU16 b0 b1 = .finite false q ∧
    (q = (((b0.toNat * 256 + b1.toNat) * 100 : Nat) : Rat) / 65535 ↔
      13107 ∣ b0.toNat * 256 + b1.toNat)

/-- RoundOut rounds to 53 significant bits, to the nearest, ties to even (00_scope.md R5, 92_eei_decisions.md D5,
D6). The format and the rounding are the spec's decisions D5 and D6 (log 4). -/
def Obligations.RoundOutIsNearestTiesToEven : Prop :=
  ∀ q : Rat, 0 ≤ q → ∃ (n : Nat) (e : Int), n ≤ 2 ^ 53 ∧ -1074 ≤ e ∧ ulp q = (2 : Rat) ^ e ∧
    roundOut q = n * (2 : Rat) ^ e ∧ |roundOut q - q| ≤ (2 : Rat) ^ e / 2 ∧
    (|roundOut q - q| = (2 : Rat) ^ e / 2 → n % 2 = 0) ∧
    ((2 : Rat) ^ (-1022 : Int) ≤ q → 2 ^ 52 ≤ n) ∧ (0 < q → q < (2 : Rat) ^ (-1022 : Int) → e = -1074)

/-- CFDEC of a word completes with the value of its class and touches no register (41_compact_float.md R120,
41_compact_float.md R121). Where the value is held is the model's choice (log 9). -/
def Obligations.CompactFloatDecoderGivesTheClassValue : Prop :=
  ∀ (w : Word24) (s : State),
    exec (.cfdec w) s = .next { s with ret := some (.fval (cfValue w.toNat)) }

/-- The four class rows of CFDEC complete with the values of steps 2 to 6 (41_compact_float.md R122,
41_compact_float.md R123, 41_compact_float.md R124, 41_compact_float.md R125, 41_compact_float.md R126). Where
the value is held is the model's choice (log 9), and so is that a row's formula is applied to operands no word
of its class has, NORM at exponent 0 and 127 and NAN at mantissa 0 (log 18). -/
def Obligations.CompactFloatClassRowsComplete : Prop :=
  (∀ (sgn : Bool) (s : State), exec (.cfdecInf sgn) s =
    .next { s with ret := some (.fval (if sgn then .negInf else .posInf)) }) ∧
  (∀ (sgn : Bool) (m : Half) (s : State),
    exec (.cfdecNan sgn m) s = .next { s with ret := some (.fval .nan) }) ∧
  (∀ (sgn : Bool) (e : BitVec 7) (m : Half) (s : State), exec (.cfdecNorm sgn e m) s =
    .next { s with ret := some (.fval
      (.finite sgn ((1 + (m.toNat : Rat) / 65536) * (2 : Rat) ^ ((e.toNat : Int) - 63)))) }) ∧
  (∀ (sgn : Bool) (m : Half) (s : State), exec (.cfdecDen sgn m) s =
    .next { s with ret := some (.fval (.finite sgn ((m.toNat : Rat) * (2 : Rat) ^ (-78 : Int)))) })

/-- Finite compact floats increase with the word and are pairwise distinct (41_compact_float.md R128,
41_compact_float.md R126). -/
def Obligations.CompactFloatOrderAndDistinctness : Prop :=
  (∀ (v w : Nat) (p q : Rat), v < w → w ≤ 0x7EFFFF → cfDecode (BitVec.ofNat 24 v) = .finite false p →
    cfDecode (BitVec.ofNat 24 w) = .finite false q → p < q) ∧
  (∀ v w : Word24, cfExp v ≠ 0x7F → cfExp w ≠ 0x7F → cfDecode v = cfDecode w → v = w)

/-- Every finite compact float is M * 2^k with M below 2^17, and RoundOut leaves it (41_compact_float.md R129). -/
def Obligations.CompactFloatNeedsNoRounding : Prop :=
  ∀ (w : Word24) (sgn : Bool) (q : Rat), cfDecode w = .finite sgn q →
    (∃ (m : Nat) (k : Int), m < 2 ^ 17 ∧ -78 ≤ k ∧ k ≤ 47 ∧ q = m * (2 : Rat) ^ k) ∧ roundOut q = q

/-- The binary64 image of every compact float word is the one the table gives (41_compact_float.md R130). Format and
NaN bits are the spec's decisions D5 and D7 (logs 4, 5). -/
def Obligations.CompactFloatImageMatchesTheTable : Prop :=
  ∀ w : Word24, (image64 (cfDecode w)).toNat = cfImage w.toNat

/-- CHGATE ends a foreign channel's decode in NotMine and else changes nothing (R162). -/
def Obligations.ChannelGateRoutesAForeignChannel : Prop :=
  ∀ s : State,
    (s.ch ≠ s.cfg.channelId →
      exec .chgate s = .next { s with st := .notMine, status := some .notMine, offFinal := some 0 }) ∧
    (s.ch = s.cfg.channelId → exec .chgate s = .next s)

/-- TAGCHK raises on an empty frame, routes a foreign tag, accepts TAG (43_frame_parser.md R163). That an empty
frame fails, and that a foreign tag is not consumed, are the spec's decisions D9 and D10 (log 17). -/
def Obligations.TagGateChecksByteZero : Prop :=
  (∀ s : State, s.len < s.off + 1 → ∃ t, exec .tagchk s = .next t ∧ AbortedFrom s t) ∧
  (∀ (s : State) (b : Byte), s.off + 1 ≤ s.len → Memory.byteAt s.mem 0 = some b →
    (b ≠ Config.tag →
      exec .tagchk s = .next { s with st := .notMine, status := some .notMine, offFinal := some 0 }) ∧
    (b = Config.tag → exec .tagchk s = .next { s with off := 1, st := .awaitingBitmap })) ∧
  (∀ s t : State, s.off = 0 → s.len = 0 → exec .tagchk s = .next t → t.diagTagValid = some false)

/-- BMLOAD loads the bitmap and enters Next(0, BM), or raises (43_frame_parser.md R164). That a frame without a
bitmap fails is the spec's decision D9 (log 17). -/
def Obligations.BitmapLoadSelectsTheFirstGroup : Prop :=
  (∀ (s : State) (b : Byte), s.off + 1 ≤ s.len → Memory.byteAt s.mem s.off = some b →
    exec .bmload s = .next (State.enterNext { s with off := s.off + 1, bm := b } 0) ∧
    ((∀ j : Fin 7, b.getLsbD j.val = false) → exec .bmload s = .next { s with
      off := s.off + 1, bm := b, st := .done, status := some .record, offFinal := some (s.off + 1) })) ∧
  (∀ s : State, s.len < s.off + 1 → ∃ t, exec .bmload s = .next t ∧ AbortedFrom s t)

/-- FIELD0 writes the battery voltage and enters Next(1, BM), or raises (R166). -/
def Obligations.BatteryVoltageStep : Prop :=
  (∀ (s : State) (b0 b1 : Byte), s.off + 2 ≤ s.len →
    Memory.byteAt s.mem s.off = some b0 →
    Memory.byteAt s.mem (s.off + 1) = some b1 →
    ∃ t : State, exec .field0 s = .next t ∧ t.record.valid .batteryVoltage = true ∧
      t = State.enterNext { s with
        off := s.off + 2
        record := { s.record with batteryVoltage := some (fixedI16 4096 b0 b1) } } 1) ∧
  (∀ s : State, s.len < s.off + 2 → ∃ t, exec .field0 s = .next t ∧ AbortedFrom s t) ∧
  (∀ s : State, Inv s → s.st = .field 0 → s.off = 2)

/-- FIELD1 writes the bus voltage and enters Next(2, BM), or raises (R167). -/
def Obligations.BusVoltageStep : Prop :=
  (∀ (s : State) (b0 b1 : Byte), s.off + 2 ≤ s.len →
    Memory.byteAt s.mem s.off = some b0 →
    Memory.byteAt s.mem (s.off + 1) = some b1 →
    ∃ t : State, exec .field1 s = .next t ∧ t.record.valid .busVoltage = true ∧
      t = State.enterNext { s with
        off := s.off + 2
        record := { s.record with busVoltage := some (fixedI16 4096 b0 b1) } } 2) ∧
  (∀ s : State, s.len < s.off + 2 → ∃ t, exec .field1 s = .next t ∧ AbortedFrom s t) ∧
  (∀ s : State, Inv s → s.st = .field 1 → s.off = if s.bm.getLsbD 0 then 4 else 2)

/-- FIELD2 writes the boot counter and enters Next(3, BM), or raises (R168). -/
def Obligations.BootCounterStep : Prop :=
  (∀ (s : State) (b0 : Byte), s.off + 1 ≤ s.len →
    Memory.byteAt s.mem s.off = some b0 →
    ∃ t : State, exec .field2 s = .next t ∧ t.record.valid .bootCount = true ∧
      t = State.enterNext { s with
        off := s.off + 1
        record := { s.record with bootCount := some b0 } } 3) ∧
  (∀ s : State, s.len < s.off + 1 → ∃ t, exec .field2 s = .next t ∧ AbortedFrom s t)

/-- FIELD4 writes the light level and enters Next(5, BM), or raises (R170). -/
def Obligations.LightLevelStep : Prop :=
  (∀ (s : State) (b0 b1 b2 : Byte), s.off + 3 ≤ s.len →
    Memory.byteAt s.mem s.off = some b0 →
    Memory.byteAt s.mem (s.off + 1) = some b1 →
    Memory.byteAt s.mem (s.off + 2) = some b2 →
    ∃ t : State, exec .field4 s = .next t ∧ t.record.valid .lux = true ∧
      t = State.enterNext { s with
        off := s.off + 3
        record := { s.record with lux := some (cfValue (b0.toNat * 65536 + b1.toNat * 256 + b2.toNat)) } } 5) ∧
  (∀ s : State, s.len < s.off + 3 → ∃ t, exec .field4 s = .next t ∧ AbortedFrom s t)

/-- FIELD5 writes the probe-one temperature and enters Next(6, BM), or raises (R171). -/
def Obligations.ProbeOneTemperatureStep : Prop :=
  (∀ (s : State) (b0 b1 : Byte), s.off + 2 ≤ s.len →
    Memory.byteAt s.mem s.off = some b0 →
    Memory.byteAt s.mem (s.off + 1) = some b1 →
    ∃ t : State, exec .field5 s = .next t ∧ t.record.valid .probeOneTemperatureC = true ∧
      t = State.enterNext { s with
        off := s.off + 2
        record := { s.record with probeOneTemperatureC := some (fixedI16 256 b0 b1) } } 6) ∧
  (∀ s : State, s.len < s.off + 2 → ∃ t, exec .field5 s = .next t ∧ AbortedFrom s t)

/-- FIELD6 writes the probe-two temperature and enters Next(7, BM), or raises (R172). -/
def Obligations.ProbeTwoTemperatureStep : Prop :=
  (∀ (s : State) (b0 b1 : Byte), s.off + 2 ≤ s.len →
    Memory.byteAt s.mem s.off = some b0 →
    Memory.byteAt s.mem (s.off + 1) = some b1 →
    ∃ t : State, exec .field6 s = .next t ∧ t.record.valid .probeTwoTemperatureC = true ∧
      t = State.enterNext { s with
        off := s.off + 2
        record := { s.record with probeTwoTemperatureC := some (fixedI16 256 b0 b1) } } 7) ∧
  (∀ s : State, s.len < s.off + 2 → ∃ t, exec .field6 s = .next t ∧ AbortedFrom s t) ∧
  (∀ (s t : State), s.off + 2 ≤ s.len → exec .field6 s = .next t → t.st = .done)

/-- FIELD3 reads temperature then humidity, attaches what Derive gives, or raises at the failing read
(43_frame_parser.md R169, 43_frame_parser.md R179). The attachment of Derive is the spec's decision D19 (log
14). -/
def Obligations.ClimateStepReadsTemperatureThenHumidity : Prop :=
  (∀ (s : State) (b0 b1 b2 b3 : Byte), s.off + 4 ≤ s.len → Memory.byteAt s.mem s.off = some b0 →
    Memory.byteAt s.mem (s.off + 1) = some b1 → Memory.byteAt s.mem (s.off + 2) = some b2 →
    Memory.byteAt s.mem (s.off + 3) = some b3 →
    ∃ t : State, exec .field3 s = .next t ∧ t.record.valid .temperatureC = true ∧
      t.record.valid .humidityPct = true ∧
      t = State.enterNext { s with
        off := s.off + 4
        record := { s.record with
          temperatureC := some (fixedI16 256 b0 b1)
          humidityPct := some (humidityU16 b2 b3)
          dewpointC := if s.cfg.deriveAttached then
            some (derive (fixedI16 256 b0 b1) (humidityU16 b2 b3)).1 else s.record.dewpointC
          heatIndexC := if s.cfg.deriveAttached then
            (match (derive (fixedI16 256 b0 b1) (humidityU16 b2 b3)).2 with
              | some h => some h
              | none => s.record.heatIndexC) else s.record.heatIndexC } } 4) ∧
  (∀ s : State, s.len < s.off + 2 → ∃ t, exec .field3 s = .next t ∧ AbortedFrom s t) ∧
  (∀ (s : State) (b0 b1 : Byte), s.off + 2 ≤ s.len → s.len < s.off + 4 →
    Memory.byteAt s.mem s.off = some b0 → Memory.byteAt s.mem (s.off + 1) = some b1 →
    ∃ t, exec .field3 s = .next t ∧ AbortedFrom { s with off := s.off + 2 } t)

/-- Each adapter, and BMLOAD, is its reader followed by its conversion (40_primitive_readers.md R103,
42_scaled_adapters.md R140, 42_scaled_adapters.md R141, 42_scaled_adapters.md R142, 42_scaled_adapters.md R143,
42_scaled_adapters.md R144, 42_scaled_adapters.md R145, 43_frame_parser.md R164). Where the returned value is
held is the model's choice (log 9). -/
def Obligations.MicroOperationsRunTheirReaders : Prop :=
  (∀ (s t : State) (u : Half), s.off + 2 ≤ s.len → exec .rdu16 s = .next t → t.ret = some (.u16 u) →
    exec .rdi16 s = .next { t with ret := some (.i16 (signed16 u)) } ∧
    exec .rh s = .next { t with ret := some (.fval (humidity u)) }) ∧
  (∀ (s t : State) (i : Int), s.off + 2 ≤ s.len → exec .rdi16 s = .next t → t.ret = some (.i16 i) →
    exec .volt s = .next { t with ret := some (.fval (fixedPoint 4096 i)) } ∧
    exec .temp s = .next { t with ret := some (.fval (fixedPoint 256 i)) }) ∧
  (∀ (s t : State) (w : Word24), s.off + 3 ≤ s.len → exec .rdu24 s = .next t → t.ret = some (.u24 w) →
    exec .lux s = exec (.cfdec w) t) ∧
  (∀ s : State, exec .boot s = exec .rdu8 s) ∧
  (∀ (s t : State) (b : Byte), s.off + 1 ≤ s.len → exec .rdu8 s = .next t → t.ret = some (.u8 b) →
    exec .bmload s = .next (State.enterNext { t with ret := s.ret, bm := b } 0)) ∧
  (∀ s : State, s.len < s.off + 1 → exec .bmload s = exec .rdu8 s) ∧
  (∀ s : State, s.len < s.off + 2 → exec .rdi16 s = exec .rdu16 s ∧ exec .rh s = exec .rdu16 s ∧
    exec .volt s = exec .rdi16 s ∧ exec .temp s = exec .rdi16 s) ∧
  (∀ s : State, s.len < s.off + 3 → exec .lux s = exec .rdu24 s)

/-- Each field step is its adapter followed by its write (30_encoding.md R73, 42_scaled_adapters.md R140,
43_frame_parser.md R166 to R172, 43_frame_parser.md R179). The latch `ret` is the model's own (log 9). -/
def Obligations.FieldStepsRunTheirAdapters : Prop :=
  (∀ (s t : State) (v : FVal), s.off + 2 ≤ s.len → exec .volt s = .next t → t.ret = some (.fval v) →
    exec .field0 s = .next (State.enterNext
      { t with ret := s.ret, record := { t.record with batteryVoltage := some v } } 1) ∧
    exec .field1 s = .next (State.enterNext
      { t with ret := s.ret, record := { t.record with busVoltage := some v } } 2)) ∧
  (∀ (s t : State) (v : Byte), s.off + 1 ≤ s.len → exec .boot s = .next t → t.ret = some (.u8 v) →
    exec .field2 s = .next (State.enterNext
      { t with ret := s.ret, record := { t.record with bootCount := some v } } 3)) ∧
  (∀ (s t u : State) (v h : FVal), s.off + 4 ≤ s.len →
    exec .temp s = .next t → t.ret = some (.fval v) → exec .rh t = .next u → u.ret = some (.fval h) →
    exec .field3 s = .next (State.enterNext
      { u with ret := s.ret, record := climateRecord s.cfg.deriveAttached v h u.record } 4)) ∧
  (∀ (s t : State) (v : FVal), s.off + 3 ≤ s.len → exec .lux s = .next t → t.ret = some (.fval v) →
    exec .field4 s = .next (State.enterNext
      { t with ret := s.ret, record := { t.record with lux := some v } } 5)) ∧
  (∀ (s t : State) (v : FVal), s.off + 2 ≤ s.len → exec .temp s = .next t → t.ret = some (.fval v) →
    exec .field5 s = .next (State.enterNext
      { t with ret := s.ret, record := { t.record with probeOneTemperatureC := some v } } 6) ∧
    exec .field6 s = .next (State.enterNext
      { t with ret := s.ret, record := { t.record with probeTwoTemperatureC := some v } } 7)) ∧
  (∀ s : State, s.len < s.off + 1 → exec .field2 s = exec .boot s) ∧
  (∀ s : State, s.len < s.off + 2 → exec .field0 s = exec .volt s ∧ exec .field1 s = exec .volt s ∧
    exec .field3 s = exec .temp s ∧ exec .field5 s = exec .temp s ∧ exec .field6 s = exec .temp s) ∧
  (∀ (s t : State), s.off + 2 ≤ s.len → s.len < s.off + 4 → exec .temp s = .next t →
    exec .field3 s = exec .rh { t with ret := s.ret }) ∧
  (∀ s : State, s.len < s.off + 3 → exec .field4 s = exec .lux s)

/-- No instruction writes the buffer, LEN, CH or a constant, and only BMLOAD writes BM (20_memory.md R56,
10_state.md R20, 10_state.md R23, 10_state.md R28). The model's own result latch changes in no frame step (log
9). The pending call and the latch are the model's own fields (logs 8 and 9). -/
def Obligations.NoOperationWritesItsInputs : Prop :=
  ∀ (i : Instr) (s t : State), exec i s = .next t →
    SameInputs s t ∧ (∀ a : Nat, Memory.byteAt t.mem a = Memory.byteAt s.mem a) ∧
    (i ≠ .bmload → t.bm = s.bm) ∧ (isFrameStep i = true → t.ret = s.ret)

/-- A record register changes only in the field step of its group, or by the abort (10_state.md R24, 10_state.md
R25, 10_state.md R34, 60_exceptions.md R216). -/
def Obligations.RecordRegistersHaveOneWriter : Prop :=
  ∀ (i : Instr) (s t : State) (f : Field), exec i s = .next t → t.record.get f ≠ s.record.get f →
    (i = fieldInstr f.gate ∧ t.record.valid f = true) ∨ (t.st = .failed ∧ t.record = Record.empty)

/-- Diagnostics change only on failure, STATUS and OFF_FINAL only at an end (10_state.md R26, 10_state.md R27,
42_scaled_adapters.md R140, 43_frame_parser.md R173). -/
def Obligations.OutputsChangeOnlyAtAnEnd : Prop :=
  ∀ (i : Instr) (s t : State), exec i s = .next t →
    (t.st ≠ .failed → SameDiagnostic s t) ∧
    (isTerminal t.st = false → t.status = s.status ∧ t.offFinal = s.offFinal) ∧
    (isFrameStep i = false → t.st ≠ .failed → t.st = s.st ∧ t.status = s.status ∧
      t.offFinal = s.offFinal ∧ t.record = s.record)

/-- OFF moves by exactly the consumed width, and not at all in a failing read (10_state.md R21,
40_primitive_readers.md R106, 40_primitive_readers.md R107). -/
def Obligations.CursorMovesByTheConsumedWidth : Prop :=
  ∀ (i : Instr) (s t : State), exec i s = .next t →
    (i = .tagchk → t.off = 1 ∨ t.off = s.off) ∧
    (i ≠ .tagchk → t.st ≠ .failed → t.off = s.off + cursorWidth i) ∧
    (t.st = .failed → s.st ≠ .failed → t.off = s.off ∨ (i = .field3 ∧ t.off = s.off + 2))

/-- Whatever instruction fails, the state is exactly the one the abort defines (60_exceptions.md R213,
60_exceptions.md R214, 60_exceptions.md R216). That the presence bits read 0 in NotMine too is the spec's
decision D14 (log 17). -/
def Obligations.EveryFailureIsTheOneAbort : Prop :=
  (∀ (i : Instr) (s t : State), exec i s = .next t → s.st ≠ .failed → t.st = .failed →
    AbortedFrom s t ∨ (i = .field3 ∧ AbortedFrom { s with off := s.off + 2 } t)) ∧
  (∀ s t : State, Inv s → s.st.running = true → step s = .next t → t.st = .failed →
    t.diagCh = some s.cfg.channelId ∧ t.diagTagValid = some (decide (1 ≤ t.off)) ∧
    (t.diagTagValid = some false ↔ t.len = 0) ∧
    t.diagTag = if 1 ≤ t.off then some Config.tag else none) ∧
  (∀ s t : State, Inv s → step s = .next t → t.st = .failed ∨ t.st = .notMine →
    ∀ f : Field, t.record.valid f = false ∧ t.record.get f = none)

/-- After reset the block is Idle with every register as the reset table says (70_reset_and_hazards.md R240,
10_state.md R30). -/
def Obligations.ResetLeavesTheBlockIdle : Prop :=
  State.reset.st = .idle ∧ State.reset.off = 0 ∧ (∀ f : Field, State.reset.record.valid f = false) ∧
  (∀ f : Field, State.reset.record.get f = none) ∧ State.reset.status = none ∧ State.reset.offFinal = none ∧
  NoDiagnostic State.reset ∧ State.reset.cfg.channelId = Config.channelId

/-- The reset state meets the block's invariants (10_state.md R30, 10_state.md R32, 70_reset_and_hazards.md R240).
The empty buffer at reset is the model's choice (log 7). -/
def Obligations.ResetMeetsTheInvariant : Prop :=
  Inv State.reset ∧ RangeOk State.reset

/-- Every step keeps the invariant of cursor, record, outputs and header (10_state.md R32, 10_state.md R33,
10_state.md R25, 10_state.md R26, 10_state.md R27, 60_exceptions.md R214, 60_exceptions.md R216). -/
def Obligations.InvariantIsKeptByEveryStep : Prop :=
  ∀ s t : State, Inv s → step s = .next t → Inv t

/-- Every step keeps the exact ranges of the record registers (10_state.md R24). -/
def Obligations.RecordRangesAreKeptByEveryStep : Prop :=
  ∀ s t : State, RangeOk s → step s = .next t → RangeOk t

/-- A running decode always has a next state, strictly forward in the order of ST (70_reset_and_hazards.md R247,
10_state.md R22). -/
def Obligations.EveryDecodeMovesForward : Prop :=
  ∀ s : State, Inv s → s.call = none → s.st.running = true →
    ∃ t : State, step s = .next t ∧ stateRank s.st < stateRank t.st ∧ s.off ≤ t.off

/-- From START a decode is in a terminal state after at most nine steps (43_frame_parser.md R161,
70_reset_and_hazards.md R246). -/
def Obligations.DecodeEndsWithinNineSteps : Prop :=
  ∀ s : State, Inv s → s.call = none → s.st = .awaitingTag →
    ∃ (n : Nat) (t : State), n ≤ 9 ∧ Host.Core.run Sys2Proof.core n s = .next t ∧ isTerminal t.st = true ∧
      t.off ≤ 18

/-- In Idle and the terminal states nothing changes until a call is presented (43_frame_parser.md R161,
43_frame_parser.md R173). That a step answers the same state there, not a stop, is the model's reading (log 11). -/
def Obligations.NothingHappensWithoutACall : Prop :=
  ∀ s : State, s.call = none → s.st.running = false → step s = .next s

/-- START takes the call and clears every output, or is refused while a decode runs (70_reset_and_hazards.md R241,
10_state.md R30). How a call is presented is the model's choice (log 8). That BM keeps its content, which R30
calls unspecified, is the model's choice too (log 6). -/
def Obligations.StartClearsOrIsRefused : Prop :=
  ∀ (s : State) (c : Call), s.call = some c →
    (s.st.running = false → ∃ t : State, step s = .next t ∧
      t.st = .awaitingTag ∧ t.off = 0 ∧ (∀ f : Field, t.record.valid f = false) ∧ t.record = Record.empty ∧
      t.status = none ∧ t.offFinal = none ∧ NoDiagnostic t ∧
      t.len = c.bytes.length ∧ t.ch = c.ch ∧ (∀ a : Nat, Memory.byteAt t.mem a = c.bytes[a]?) ∧
      t.call = none ∧ t.bm = s.bm ∧ t.cfg = s.cfg ∧ t.ret = s.ret) ∧
    (s.st.running = true → step s = .refused .startWhileRunning)

/-- A step runs the instruction that the parser state and the bitmap select (43_frame_parser.md R161, 30_encoding.md
R85). -/
def Obligations.StepRunsTheDecodedInstruction : Prop :=
  ∀ s : State, s.call = none →
    (s.st = .awaitingTag →
      (s.ch ≠ s.cfg.channelId → decode .gate [] = .ok (.chgate, []) ∧ step s = exec .chgate s) ∧
      (s.ch = s.cfg.channelId → step s = exec .tagchk s)) ∧
    (∀ (b : Byte) (i : Instr), s.st = .awaitingBitmap → decode .bitmap [b] = .ok (i, []) →
      step s = exec i s) ∧
    (∀ (k : Fin 7) (i : Instr), s.st = .field k → s.bm.getLsbD k.val = true →
      decode (.select k.val) [s.bm] = .ok (i, []) → step s = exec i s)

/-- START and nine steps give the outcome of the decode function, for every input (43_frame_parser.md R174). R174 is
the spec's own inference from R161 to R173, and trailing bytes, bit 7 and short frames follow its decisions D9,
D11 and D12 (log 17). How a call is presented, and that it is then gone, is the model's choice (log 8). -/
def Obligations.WholeDecodeEqualsTheFunction : Prop :=
  ∀ (s : State) (c : Call), s.call = some c → s.st.running = false →
    ∃ t : State, Host.Core.run Sys2Proof.core 10 s = .next t ∧ isTerminal t.st = true ∧ t.call = none ∧
      t.result = some (decodeFrame s.cfg c.bytes c.ch)

/-- The outcome is a function of the bytes, the channel and the constants alone (R175). -/
def Obligations.OutcomeForgetsEarlierDecodes : Prop :=
  ∀ (s₁ s₂ t₁ t₂ : State) (c : Call), s₁.call = some c → s₂.call = some c → s₁.st.running = false →
    s₂.st.running = false → s₁.cfg = s₂.cfg → Host.Core.run Sys2Proof.core 10 s₁ = .next t₁ →
    Host.Core.run Sys2Proof.core 10 s₂ = .next t₂ →
    t₁.result = t₂.result ∧ (t₁.result).isSome = true ∧ t₁.record = t₂.record

/-- Bytes after the last promised field change nothing (43_frame_parser.md R176). That trailing bytes are accepted
is the spec's decision D11 (log 17). -/
def Obligations.TrailingBytesAreNotRead : Prop :=
  ∀ (s : State) (b : Byte) (payload extra : List Byte), s.st.running = false →
    need b ≤ payload.length + 2 →
    ∃ t u : State,
      Host.Core.run Sys2Proof.core 10
        { s with call := some ⟨Config.tag :: b :: payload, s.cfg.channelId⟩ } = .next t ∧
      Host.Core.run Sys2Proof.core 10
        { s with call := some ⟨Config.tag :: b :: (payload ++ extra), s.cfg.channelId⟩ } = .next u ∧
      t.st = .done ∧ u.st = .done ∧ t.offFinal = some (need b) ∧ u.offFinal = some (need b) ∧
      t.record = u.record

/-- Bit 7 of the bitmap changes no outcome and consumes no byte (43_frame_parser.md R177, 30_encoding.md R79). That
bit 7 is ignored is the spec's decision D12 (log 17). -/
def Obligations.ReservedBitmapBitIsIgnored : Prop :=
  ∀ (s : State) (x b : Byte) (rest : List Byte) (ch : Int), s.st.running = false →
    ∃ t u : State,
      Host.Core.run Sys2Proof.core 10 { s with call := some ⟨x :: b :: rest, ch⟩ } = .next t ∧
      Host.Core.run Sys2Proof.core 10 { s with call := some ⟨x :: (b ^^^ 0x80) :: rest, ch⟩ } = .next u ∧
      t.result = u.result ∧ t.st = u.st ∧ t.off = u.off

/-- A wrong channel, or a wrong tag, gives NotMine with nothing consumed (R180). -/
def Obligations.ForeignFramesAreNotMine : Prop :=
  ∀ (s : State) (c : Call), s.call = some c → s.st.running = false →
    (c.ch ≠ s.cfg.channelId ∨ ∃ (b : Byte) (rest : List Byte), c.bytes = b :: rest ∧ b ≠ Config.tag) →
    ∃ t : State, Host.Core.run Sys2Proof.core 2 s = .next t ∧ t.st = .notMine ∧
      t.status = some .notMine ∧ t.offFinal = some 0 ∧ t.off = 0 ∧ NoDiagnostic t ∧ t.record = Record.empty

/-- A decode fails exactly when the frame is empty, lacks its bitmap, or is shorter than Need (60_exceptions.md
R211, 60_exceptions.md R218, 30_encoding.md R78). That an empty frame and the tag alone fail is the spec's
decision D9 (log 17). -/
def Obligations.TruncationIsExactlyWhenItFails : Prop :=
  ∀ (s t : State) (c : Call), s.call = some c → s.st.running = false →
    Host.Core.run Sys2Proof.core 10 s = .next t →
    (t.st = .failed ↔ c.ch = s.cfg.channelId ∧
      (c.bytes = [] ∨ c.bytes = [Config.tag] ∨
        ∃ (b : Byte) (payload : List Byte),
          c.bytes = Config.tag :: b :: payload ∧ payload.length + 2 < need b))

/-- Reading a record register gives its value exactly when its presence bit is 1 (10_state.md R24, 10_state.md R25,
70_reset_and_hazards.md R243). The refusal is the model's form of it (log 21). That the read answers in this way
while STATUS is not RECORD too, which duty 4 of R243 keeps the caller from, is the model's choice (log 23). -/
def Obligations.RecordRegisterWithoutValueIsNotRead : Prop :=
  ∀ (s : State) (f : Field),
    (s.record.valid f = false ↔ readRecord f s = .refused (.noRecordValue f)) ∧
    (s.record.valid f = true ↔ ∃ v : RecVal, readRecord f s = .next v ∧ s.record.get f = some v)

/-- STATUS and DIAG_CAUSE have the codes of the table, and no two outcomes share one (60_exceptions.md R219). The
numeric codes of STATUS are 0, 1, 2 and those of DIAG_CAUSE 0 and 1, as the spec's decision D16 gives them (log
17), and different outcomes have different codes. -/
def Obligations.OutcomeCodesAreTheTables : Prop :=
  statusCode .record = 0 ∧ statusCode .notMine = 1 ∧ statusCode .decodeError = 2 ∧
  causeCode none = 0 ∧ causeCode (some .outOfBounds) = 1 ∧
  ∀ a b : Status, statusCode a = statusCode b → a = b

/-- Need(b) is the length formula, from 2 to 18, without bit 7 (30_encoding.md R78). -/
def Obligations.NeedIsTheLengthFormula : Prop :=
  ∀ b : Byte,
    need b = 2 + 2 * (b.getLsbD 0).toNat + 2 * (b.getLsbD 1).toNat + (b.getLsbD 2).toNat +
      4 * (b.getLsbD 3).toNat + 3 * (b.getLsbD 4).toNat + 2 * (b.getLsbD 5).toNat + 2 * (b.getLsbD 6).toNat ∧
    2 ≤ need b ∧ need b ≤ Config.maxUsed ∧ need (b ^^^ 0x80) = need b

/-- The signed reinterpretation is the bijection onto [-32768, 32767] modulo 65536 (40_primitive_readers.md R105,
30_encoding.md R74). -/
def Obligations.SignedReadIsTheTwosComplementBijection : Prop :=
  (∀ u : Half, -32768 ≤ signed16 u ∧ signed16 u ≤ 32767 ∧ (signed16 u - (u.toNat : Int)) % 65536 = 0) ∧
  (∀ u v : Half, signed16 u = signed16 v → u = v) ∧
  (∀ i : Int, -32768 ≤ i → i ≤ 32767 → ∃ u : Half, signed16 u = i)

/-- The heat index is absent outside its domain and follows the formulas inside; the dewpoint is the Magnus form
(44_derived_quantities.md R191, 44_derived_quantities.md R192, 44_derived_quantities.md R193,
44_derived_quantities.md R196, 44_derived_quantities.md R197). The formulas' floating-point values are free (log
14). -/
def Obligations.HeatIndexIsAbsentOutsideItsDomain : Prop :=
  (∀ (A : DeriveArith) (t rh : Rat), roundInt t < 76 ∨ 126 < roundInt t ∨ rh < 0 ∨ 100 < rh →
    heatIndexF A t rh = none ∧ heatIndexC A t rh = none) ∧
  (∀ (A : DeriveArith) (t rh : Rat), t < 151 / 2 ∨ 253 / 2 < t → heatIndexF A t rh = none) ∧
  (∀ (A : DeriveArith) (t rh : Rat), 76 ≤ roundInt t → roundInt t ≤ 126 → 0 ≤ rh → rh ≤ 100 →
    heatIndexF A t rh =
      if heatSum A t rh < 160 then some (heatEasy A t rh)
      else if heatCorrected A t rh < 367 / 2 then some (heatCorrected A t rh) else none) ∧
  (∀ rh : Rat, (rh ≤ 1 → clampedHumidity rh = 1 / 100) ∧
    (1 ≤ rh → rh ≤ 100 → clampedHumidity rh = rh / 100) ∧ (100 ≤ rh → clampedHumidity rh = 1)) ∧
  (∀ (A : DeriveArith) (t rh : Rat), dewpoint A t rh = A.fl .dewpoint
    ((6076 / 25) * (A.ln (clampedHumidity rh) + t * (141 / 8) / (t + 6076 / 25)) /
      (141 / 8 - A.ln (clampedHumidity rh) - t * (141 / 8) / (t + 6076 / 25))) t rh)

/-- Derive is the dewpoint and the heat index of the converted temperature, converted back (44_derived_quantities.md
R190, 44_derived_quantities.md R197, 44_derived_quantities.md R198). The conversion of the input is the spec's
decision D25 (log 22); that the two conversions round nothing is the model's choice (log 14). -/
def Obligations.DeriveConvertsBothWays : Prop :=
  (∀ t : Rat, celsiusToFahrenheit t = t * 9 / 5 + 32) ∧
  (∀ x y : FVal, derive x y = deriveWith Config.deriveArith x y) ∧
  (∀ (A : DeriveArith) (st sr : Bool) (qt qr : Rat), ∃ sd : Bool,
    (deriveWith A (.finite st qt) (.finite sr qr)).1 =
      .finite sd |dewpoint A (signedValue st qt) (signedValue sr qr)| ∧
    signedValue sd |dewpoint A (signedValue st qt) (signedValue sr qr)| =
      dewpoint A (signedValue st qt) (signedValue sr qr)) ∧
  (∀ (A : DeriveArith) (st sr : Bool) (qt qr f : Rat),
    heatIndexF A (signedValue st qt * 9 / 5 + 32) (signedValue sr qr) = some f →
    ∃ sh : Bool, (deriveWith A (.finite st qt) (.finite sr qr)).2 = some (.finite sh |(f - 32) * 5 / 9|) ∧
      signedValue sh |(f - 32) * 5 / 9| = (f - 32) * 5 / 9) ∧
  (∀ (A : DeriveArith) (st sr : Bool) (qt qr : Rat),
    heatIndexF A (signedValue st qt * 9 / 5 + 32) (signedValue sr qr) = none →
    (deriveWith A (.finite st qt) (.finite sr qr)).2 = none) ∧
  (∀ (A : DeriveArith) (st sr : Bool) (qt qr : Rat), signedValue st qt < 145 / 6 ∨ 105 / 2 < signedValue st qt →
    (deriveWith A (.finite st qt) (.finite sr qr)).2 = none)

/-- The document's test properties of the derived quantities hold (44_derived_quantities.md R202,
44_derived_quantities.md R200, 44_derived_quantities.md R191, 44_derived_quantities.md R193). Its tolerance is
the model's choice (log 24). -/
def Obligations.DerivedQuantitiesHaveTheDocumentsProperties : Prop :=
  (∀ A : DeriveArith, A.FollowsFormulas →
    heatIndexF A 76 50 = some (heatEasy A 76 50) ∧ |heatEasy A 76 50 - 7565 / 100| ≤ 1 / 10 ∧
    |dewpoint A 20 50 - 93 / 10| ≤ 1 / 10) ∧
  (∀ (A : DeriveArith) (rh : Rat), heatIndexF A 130 rh = none ∧ heatIndexC A 130 rh = none) ∧
  clampedHumidity 0 = 1 / 100
end

