-- ==== Sys2Proof/Laws/Decode.lean ====
section
/-! SUPPORT. The laws of the decoder's parts: the least set group bit, and the fields of a compact float word. -/

namespace Sys2Proof

theorem mem_groups (i : Fin 7) : i ∈ ([0, 1, 2, 3, 4, 5, 6] : List (Fin 7)) := by
  revert i; decide

/-- A selected group is the least set bit from `k` up (R165). -/
theorem firstGroup_eq_some_iff (k : Nat) (b : Byte) (j : Fin 7) :
    firstGroup k b = some j ↔
      k ≤ j.val ∧ b.getLsbD j.val = true ∧ ∀ i : Fin 7, k ≤ i.val → i < j → b.getLsbD i.val = false := by
  constructor
  · intro h
    obtain ⟨h1, pre, post, h2, h3⟩ := List.find?_eq_some_iff_append.mp h
    have hj : k ≤ j.val ∧ b.getLsbD j.val = true := by simpa using h1
    refine ⟨hj.1, hj.2, fun i hk hi => ?_⟩
    have hmem : i ∈ pre := by
      have hall : i ∈ ([0, 1, 2, 3, 4, 5, 6] : List (Fin 7)) := mem_groups i
      have hp : List.Pairwise (· < ·) ([0, 1, 2, 3, 4, 5, 6] : List (Fin 7)) := by decide
      rw [h2] at hall hp
      rcases List.mem_append.mp hall with h | h
      · exact h
      · rcases List.mem_cons.mp h with h | h
        · omega
        · have := (List.pairwise_cons.mp (List.pairwise_append.mp hp).2.1).1 i h
          omega
    have := h3 i hmem
    simpa [hk] using this
  · rintro ⟨hk, hb, hlt⟩
    rw [firstGroup, List.find?_eq_some_iff_append]
    refine ⟨by simp [hk, hb], ?_⟩
    have hsplit : ∀ j : Fin 7, ∃ pre post : List (Fin 7),
        ([0, 1, 2, 3, 4, 5, 6] : List (Fin 7)) = pre ++ j :: post ∧ ∀ i ∈ pre, i < j := by
      intro j
      refine ⟨([0, 1, 2, 3, 4, 5, 6] : List (Fin 7)).take j.val, ([0, 1, 2, 3, 4, 5, 6] : List (Fin 7)).drop (j.val + 1), ?_⟩
      revert j; decide
    obtain ⟨pre, post, h1, h2⟩ := hsplit j
    refine ⟨pre, post, h1, fun i hi => ?_⟩
    by_cases h : k ≤ i.val
    · simp [hlt i h (h2 i hi)]
    · simp [h]

/-- No group is selected exactly when no bit from `k` to 6 is set (R165). -/
theorem firstGroup_eq_none_iff (k : Nat) (b : Byte) :
    firstGroup k b = none ↔ ∀ j : Fin 7, k ≤ j.val → b.getLsbD j.val = false := by
  rw [firstGroup, List.find?_eq_none]
  constructor
  · intro h j hk
    have := h j (mem_groups j)
    simpa [hk] using this
  · intro h j _
    by_cases hk : k ≤ j.val
    · simp [h j hk]
    · simp [hk]

@[simp] theorem cfSign_cfWord (sgn : Bool) (e : BitVec 7) (m : Half) : cfSign (cfWord sgn e m) = sgn := by
  simp only [cfSign, cfWord]
  rw [BitVec.getLsbD_append, BitVec.getLsbD_append]
  simp

@[simp] theorem cfMant_cfWord (sgn : Bool) (e : BitVec 7) (m : Half) : cfMant (cfWord sgn e m) = m := by
  simp only [cfMant, cfWord]
  ext i hi
  rw [BitVec.getElem_extractLsb', BitVec.getLsbD_append]
  simp [hi]

@[simp] theorem cfExp_cfWord (sgn : Bool) (e : BitVec 7) (m : Half) : cfExp (cfWord sgn e m) = e := by
  simp only [cfExp, cfWord]
  ext i hi
  rw [BitVec.getElem_extractLsb', BitVec.getLsbD_append, BitVec.getLsbD_append]
  simp [hi]

/-- A compact float word is its three fields (R75). -/
theorem cfWord_fields (w : Word24) : cfWord (cfSign w) (cfExp w) (cfMant w) = w := by
  simp only [cfSign, cfExp, cfMant, cfWord]
  ext i hi
  simp only [← BitVec.getLsbD_eq_getElem, BitVec.getLsbD_append, BitVec.getLsbD_extractLsb', BitVec.getLsbD_ofBool]
  by_cases h1 : i < 16
  · simp [h1]
  · by_cases h2 : i - 16 < 7
    · simp [h1, h2, show 16 + (i - 16) = i by omega]
    · have : i = 23 := by omega
      subst this; simp

/-- The three bytes of a word, joined, are the word (R52, R75). -/
theorem cfBytes_join (w : Word24) :
    (w.extractLsb' 16 8 ++ w.extractLsb' 8 8 ++ w.extractLsb' 0 8 : Word24) = w := by
  ext i hi
  simp only [← BitVec.getLsbD_eq_getElem, BitVec.getLsbD_append, BitVec.getLsbD_extractLsb']
  by_cases h1 : i < 8
  · simp [h1]
  · by_cases h2 : i - 8 < 8
    · simp [h1, h2, show 8 + (i - 8) = i by omega]
    · simp [h1, h2, show 16 + (i - 8 - 8) = i by omega, show i - 8 - 8 < 8 by omega]

/-- Three bytes are the bytes of the word they make (R52, R75). -/
theorem cfBytes_append (b0 b1 b2 : Byte) : cfBytes (b0 ++ b1 ++ b2 : Word24) = [b0, b1, b2] := by
  simp only [cfBytes, List.cons.injEq, and_true]
  refine ⟨?_, ?_, ?_⟩
  · ext i hi
    rw [BitVec.getElem_extractLsb', BitVec.getLsbD_append, BitVec.getLsbD_append]
    simp [show ¬ 16 + i < 8 by omega, show ¬ 16 + i - 8 < 8 by omega, show 16 + i - 8 - 8 = i by omega, hi]
  · ext i hi
    rw [BitVec.getElem_extractLsb', BitVec.getLsbD_append, BitVec.getLsbD_append]
    simp [hi]
  · ext i hi
    rw [BitVec.getElem_extractLsb', BitVec.getLsbD_append]
    simp [hi]

end Sys2Proof
end

