-- ==== Sys2Proof/Laws/Derive.lean ====
section
/-! SUPPORT. The laws of the derived quantities: what the rounding of the temperature gives, where the heat index is
absent, the number a derived value denotes, and the record FIELD3 writes. -/

namespace Sys2Proof.Machine

/-- `RoundInt` answers an integer at most one half away, whatever the free tie rule (R192). -/
theorem roundInt_near (x : Rat) : x - 1 / 2 ≤ (roundInt x : Rat) ∧ (roundInt x : Rat) ≤ x + 1 / 2 := by
  have h1 : (x.floor : Rat) ≤ x := Int.floor_le x
  have h2 : x < (x.floor : Rat) + 1 := Int.lt_floor_add_one x
  unfold roundInt
  dsimp only
  split_ifs with ha hb hc <;> push_cast <;> constructor <;> linarith

@[simp] theorem roundInt_intCast (n : Int) : roundInt (n : Rat) = n := by simp [roundInt]

theorem heatDomain_iff (t rh : Rat) :
    heatDomain t rh = true ↔ (76 ≤ roundInt t ∧ roundInt t ≤ 126) ∧ 0 ≤ rh ∧ rh ≤ 100 := by
  simp [heatDomain, and_assoc]

/-- Outside the domain the heat index is absent (R192). -/
theorem heatIndexF_of_not_domain (A : DeriveArith) {t rh : Rat} (h : heatDomain t rh = false) :
    heatIndexF A t rh = none := by
  simp [heatIndexF, h]

/-- A heat index needs a temperature from 75.5 to 126.5 °F (R192). -/
theorem heatIndexF_range {A : DeriveArith} {t rh f : Rat} (h : heatIndexF A t rh = some f) :
    151 / 2 ≤ t ∧ t ≤ 253 / 2 := by
  have hd : heatDomain t rh = true := by
    by_contra hn
    simp [heatIndexF_of_not_domain A (by simpa using hn)] at h
  obtain ⟨⟨h1, h2⟩, -⟩ := (heatDomain_iff t rh).1 hd
  have h3 : (76 : Rat) ≤ (roundInt t : Rat) := by exact_mod_cast h1
  have h4 : (roundInt t : Rat) ≤ 126 := by exact_mod_cast h2
  obtain ⟨h5, h6⟩ := roundInt_near t
  constructor <;> linarith

/-- A derived value denotes its number (R8). -/
theorem derivedValue_denotes (z : Bool) (r : Rat) :
    ∃ sgn : Bool, derivedValue z r = .finite sgn |r| ∧ signedValue sgn |r| = r := by
  refine ⟨_, rfl, ?_⟩
  by_cases h0 : r = 0
  · simp [h0, signedValue]
  · by_cases hn : r < 0
    · simp [h0, hn, signedValue, abs_of_neg hn]
    · simp [h0, hn, signedValue, abs_of_nonneg (not_lt.1 hn)]

/-- What FIELD3 writes, field by field (R169, R179). -/
theorem writeClimate_eq (attached : Bool) (t rh : FVal) (r : Record) :
    writeClimate attached t rh r = climateRecord attached t rh r := by
  unfold writeClimate climateRecord
  cases attached
  · rfl
  · rcases derive t rh with ⟨d, _ | h⟩ <;> rfl

end Sys2Proof.Machine
end

