-- ==== Sys2Proof/Laws/Memory.lean ====
section
/-! SUPPORT. The laws of the frame buffer: what START places in it is canonical and complete, and reads give the
bytes of the call. Nothing else writes it (R56). -/

namespace Sys2Proof.Machine

@[simp] theorem Memory.byteAt_nil (a : Nat) : Memory.byteAt [] a = none := rfl

@[simp] theorem Memory.byteAt_cons (b : Nat) (v : Byte) (m : Memory) (a : Nat) :
    Memory.byteAt ((b, v) :: m) a = if b = a then some v else Memory.byteAt m a := rfl

theorem Memory.map_fst_ofBytesFrom (a : Nat) (bs : List Byte) :
    (Memory.ofBytesFrom a bs).map Prod.fst = List.range' a bs.length := by
  induction bs generalizing a with
  | nil => rfl
  | cons b bs ih => simp [Memory.ofBytesFrom, ih, List.range'_succ]

theorem Memory.byteAt_ofBytesFrom (a x : Nat) (bs : List Byte) :
    Memory.byteAt (Memory.ofBytesFrom a bs) x = if x < a then none else bs[x - a]? := by
  induction bs generalizing a with
  | nil => simp [Memory.ofBytesFrom]
  | cons b bs ih =>
    rw [Memory.ofBytesFrom, Memory.byteAt_cons, ih]
    rcases Nat.lt_trichotomy x a with h | h | h
    · have h1 : ¬ a = x := by omega
      have h2 : x < a + 1 := by omega
      simp [h, h1, h2]
    · subst h; simp
    · have h1 : ¬ a = x := by omega
      have h2 : ¬ x < a := by omega
      have h3 : ¬ x < a + 1 := by omega
      have h4 : x - a = (x - (a + 1)) + 1 := by omega
      simp only [h1, h2, h3, if_false]
      rw [h4, List.getElem?_cons_succ]

/-- A read of the buffer START placed gives the byte of the call at that offset (R20, R50). -/
@[simp] theorem Memory.byteAt_ofBytes (bs : List Byte) (a : Nat) :
    Memory.byteAt (Memory.ofBytes bs) a = bs[a]? := by
  simp [Memory.ofBytes, Memory.byteAt_ofBytesFrom]

/-- START places exactly the bytes at `0` to `LEN - 1` (R20, R50). -/
@[simp] theorem Memory.complete_ofBytes (bs : List Byte) :
    Memory.complete (Memory.ofBytes bs) bs.length = true := by
  simp [Memory.complete, Memory.ofBytes, Memory.map_fst_ofBytesFrom, List.range_eq_range']

theorem Memory.rising_of_map_range' (m : Memory) (a n : Nat) (h : m.map Prod.fst = List.range' a n) :
    Memory.rising m = true := by
  induction m generalizing a n with
  | nil => rfl
  | cons c m ih =>
    cases n with
    | zero => simp at h
    | succ n =>
      rw [List.range'_succ, List.map_cons, List.cons.injEq] at h
      cases m with
      | nil => rfl
      | cons d m =>
        cases n with
        | zero => simp at h
        | succ n =>
          have hd : d.1 = a + 1 := by
            have := h.2
            rw [List.range'_succ, List.map_cons, List.cons.injEq] at this
            exact this.1
          simp only [Memory.rising, ih (a + 1) (n + 1) h.2, Bool.and_true, decide_eq_true_eq]
          omega

/-- A complete buffer is in canonical form. -/
theorem Memory.wf_of_complete {m : Memory} {len : Nat} (h : Memory.complete m len = true) :
    Memory.wf m = true := by
  have h' : m.map Prod.fst = List.range' 0 len := by
    simpa [Memory.complete, List.range_eq_range'] using h
  simp [Memory.wf, Memory.rising_of_map_range' m 0 len h', Memory.unlisted]

/-- The canonical form holds of what START places. -/
theorem Memory.wf_ofBytes (bs : List Byte) : Memory.wf (Memory.ofBytes bs) = true :=
  Memory.wf_of_complete (Memory.complete_ofBytes bs)

/-- A complete buffer is the buffer of some byte sequence of that length. -/
theorem Memory.eq_ofBytes_of_complete {m : Memory} {len : Nat} (h : Memory.complete m len = true) :
    m = Memory.ofBytes (m.map Prod.snd) ∧ (m.map Prod.snd).length = len := by
  have h' : m.map Prod.fst = List.range' 0 len := by
    simpa [Memory.complete, List.range_eq_range'] using h
  have key : ∀ (m : Memory) (a n : Nat), m.map Prod.fst = List.range' a n →
      m = Memory.ofBytesFrom a (m.map Prod.snd) ∧ (m.map Prod.snd).length = n := by
    intro m
    induction m with
    | nil =>
      intro a n h
      cases n with
      | zero => exact ⟨rfl, rfl⟩
      | succ n => simp [List.range'_succ] at h
    | cons c m ih =>
      intro a n h
      cases n with
      | zero => simp at h
      | succ n =>
        rw [List.range'_succ, List.map_cons, List.cons.injEq] at h
        obtain ⟨h1, h2⟩ := ih (a + 1) n h.2
        refine ⟨?_, by simpa using h2⟩
        rw [List.map_cons, Memory.ofBytesFrom, ← h1, ← h.1]
  exact key m 0 len h'

/-- Every offset below `LEN` of a complete buffer has a byte. -/
theorem Memory.byteAt_isSome_of_complete {m : Memory} {len a : Nat} (h : Memory.complete m len = true)
    (ha : a < len) : ∃ b, Memory.byteAt m a = some b := by
  obtain ⟨h1, h2⟩ := Memory.eq_ofBytes_of_complete h
  rw [h1, Memory.byteAt_ofBytes]
  exact ⟨_, List.getElem?_eq_getElem (by omega)⟩

/-- `MemRead(a, 2)` as a number (R53). -/
theorem toNat_append_bytes2 (b0 b1 : Byte) :
    (b0 ++ b1 : Half).toNat = b0.toNat * 256 + b1.toNat := by
  have h1 := b1.isLt
  rw [BitVec.toNat_append, Nat.shiftLeft_eq, ← Nat.shiftLeft_eq, ← Nat.shiftLeft_add_eq_or_of_lt h1,
    Nat.shiftLeft_eq]

/-- `MemRead(a, 3)` as a number (R53). -/
theorem toNat_append_bytes3 (b0 b1 b2 : Byte) :
    (b0 ++ b1 ++ b2 : Word24).toNat = b0.toNat * 65536 + b1.toNat * 256 + b2.toNat := by
  have h2 := b2.isLt
  have h := toNat_append_bytes2 b0 b1
  rw [BitVec.toNat_append, ← Nat.shiftLeft_add_eq_or_of_lt h2, Nat.shiftLeft_eq]
  have : (b0 ++ b1).toNat = b0.toNat * 256 + b1.toNat := h
  rw [this]
  omega

end Sys2Proof.Machine
end

