-- ==== Sys2Proof/Laws/State.lean ====
section
/-! SUPPORT. One lemma for each field under each update of the state, true by rfl, so that no later proof unfolds a
record update; and what `enterNext` leaves alone. -/

namespace Sys2Proof.Machine

@[simp] theorem State.setOff_cfg (s : State) (n : Nat) : (s.setOff n).cfg = s.cfg := rfl
@[simp] theorem State.setOff_call (s : State) (n : Nat) : (s.setOff n).call = s.call := rfl
@[simp] theorem State.setOff_mem (s : State) (n : Nat) : (s.setOff n).mem = s.mem := rfl
@[simp] theorem State.setOff_len (s : State) (n : Nat) : (s.setOff n).len = s.len := rfl
@[simp] theorem State.setOff_ch (s : State) (n : Nat) : (s.setOff n).ch = s.ch := rfl
@[simp] theorem State.setOff_st (s : State) (n : Nat) : (s.setOff n).st = s.st := rfl
@[simp] theorem State.setOff_off (s : State) (n : Nat) : (s.setOff n).off = n := rfl
@[simp] theorem State.setOff_bm (s : State) (n : Nat) : (s.setOff n).bm = s.bm := rfl
@[simp] theorem State.setOff_record (s : State) (n : Nat) : (s.setOff n).record = s.record := rfl
@[simp] theorem State.setOff_status (s : State) (n : Nat) : (s.setOff n).status = s.status := rfl
@[simp] theorem State.setOff_offFinal (s : State) (n : Nat) : (s.setOff n).offFinal = s.offFinal := rfl
@[simp] theorem State.setOff_diagCh (s : State) (n : Nat) : (s.setOff n).diagCh = s.diagCh := rfl
@[simp] theorem State.setOff_diagTagValid (s : State) (n : Nat) : (s.setOff n).diagTagValid = s.diagTagValid := rfl
@[simp] theorem State.setOff_diagTag (s : State) (n : Nat) : (s.setOff n).diagTag = s.diagTag := rfl
@[simp] theorem State.setOff_diagCause (s : State) (n : Nat) : (s.setOff n).diagCause = s.diagCause := rfl
@[simp] theorem State.setOff_ret (s : State) (n : Nat) : (s.setOff n).ret = s.ret := rfl

@[simp] theorem State.setBm_cfg (s : State) (b : BitVec 8) : (s.setBm b).cfg = s.cfg := rfl
@[simp] theorem State.setBm_call (s : State) (b : BitVec 8) : (s.setBm b).call = s.call := rfl
@[simp] theorem State.setBm_mem (s : State) (b : BitVec 8) : (s.setBm b).mem = s.mem := rfl
@[simp] theorem State.setBm_len (s : State) (b : BitVec 8) : (s.setBm b).len = s.len := rfl
@[simp] theorem State.setBm_ch (s : State) (b : BitVec 8) : (s.setBm b).ch = s.ch := rfl
@[simp] theorem State.setBm_st (s : State) (b : BitVec 8) : (s.setBm b).st = s.st := rfl
@[simp] theorem State.setBm_off (s : State) (b : BitVec 8) : (s.setBm b).off = s.off := rfl
@[simp] theorem State.setBm_bm (s : State) (b : BitVec 8) : (s.setBm b).bm = b := rfl
@[simp] theorem State.setBm_record (s : State) (b : BitVec 8) : (s.setBm b).record = s.record := rfl
@[simp] theorem State.setBm_status (s : State) (b : BitVec 8) : (s.setBm b).status = s.status := rfl
@[simp] theorem State.setBm_offFinal (s : State) (b : BitVec 8) : (s.setBm b).offFinal = s.offFinal := rfl
@[simp] theorem State.setBm_diagCh (s : State) (b : BitVec 8) : (s.setBm b).diagCh = s.diagCh := rfl
@[simp] theorem State.setBm_diagTagValid (s : State) (b : BitVec 8) : (s.setBm b).diagTagValid = s.diagTagValid := rfl
@[simp] theorem State.setBm_diagTag (s : State) (b : BitVec 8) : (s.setBm b).diagTag = s.diagTag := rfl
@[simp] theorem State.setBm_diagCause (s : State) (b : BitVec 8) : (s.setBm b).diagCause = s.diagCause := rfl
@[simp] theorem State.setBm_ret (s : State) (b : BitVec 8) : (s.setBm b).ret = s.ret := rfl

@[simp] theorem State.setRecord_cfg (s : State) (r : Record) : (s.setRecord r).cfg = s.cfg := rfl
@[simp] theorem State.setRecord_call (s : State) (r : Record) : (s.setRecord r).call = s.call := rfl
@[simp] theorem State.setRecord_mem (s : State) (r : Record) : (s.setRecord r).mem = s.mem := rfl
@[simp] theorem State.setRecord_len (s : State) (r : Record) : (s.setRecord r).len = s.len := rfl
@[simp] theorem State.setRecord_ch (s : State) (r : Record) : (s.setRecord r).ch = s.ch := rfl
@[simp] theorem State.setRecord_st (s : State) (r : Record) : (s.setRecord r).st = s.st := rfl
@[simp] theorem State.setRecord_off (s : State) (r : Record) : (s.setRecord r).off = s.off := rfl
@[simp] theorem State.setRecord_bm (s : State) (r : Record) : (s.setRecord r).bm = s.bm := rfl
@[simp] theorem State.setRecord_record (s : State) (r : Record) : (s.setRecord r).record = r := rfl
@[simp] theorem State.setRecord_status (s : State) (r : Record) : (s.setRecord r).status = s.status := rfl
@[simp] theorem State.setRecord_offFinal (s : State) (r : Record) : (s.setRecord r).offFinal = s.offFinal := rfl
@[simp] theorem State.setRecord_diagCh (s : State) (r : Record) : (s.setRecord r).diagCh = s.diagCh := rfl
@[simp] theorem State.setRecord_diagTagValid (s : State) (r : Record) : (s.setRecord r).diagTagValid = s.diagTagValid := rfl
@[simp] theorem State.setRecord_diagTag (s : State) (r : Record) : (s.setRecord r).diagTag = s.diagTag := rfl
@[simp] theorem State.setRecord_diagCause (s : State) (r : Record) : (s.setRecord r).diagCause = s.diagCause := rfl
@[simp] theorem State.setRecord_ret (s : State) (r : Record) : (s.setRecord r).ret = s.ret := rfl

@[simp] theorem State.setRet_cfg (s : State) (v : RetVal) : (s.setRet v).cfg = s.cfg := rfl
@[simp] theorem State.setRet_call (s : State) (v : RetVal) : (s.setRet v).call = s.call := rfl
@[simp] theorem State.setRet_mem (s : State) (v : RetVal) : (s.setRet v).mem = s.mem := rfl
@[simp] theorem State.setRet_len (s : State) (v : RetVal) : (s.setRet v).len = s.len := rfl
@[simp] theorem State.setRet_ch (s : State) (v : RetVal) : (s.setRet v).ch = s.ch := rfl
@[simp] theorem State.setRet_st (s : State) (v : RetVal) : (s.setRet v).st = s.st := rfl
@[simp] theorem State.setRet_off (s : State) (v : RetVal) : (s.setRet v).off = s.off := rfl
@[simp] theorem State.setRet_bm (s : State) (v : RetVal) : (s.setRet v).bm = s.bm := rfl
@[simp] theorem State.setRet_record (s : State) (v : RetVal) : (s.setRet v).record = s.record := rfl
@[simp] theorem State.setRet_status (s : State) (v : RetVal) : (s.setRet v).status = s.status := rfl
@[simp] theorem State.setRet_offFinal (s : State) (v : RetVal) : (s.setRet v).offFinal = s.offFinal := rfl
@[simp] theorem State.setRet_diagCh (s : State) (v : RetVal) : (s.setRet v).diagCh = s.diagCh := rfl
@[simp] theorem State.setRet_diagTagValid (s : State) (v : RetVal) : (s.setRet v).diagTagValid = s.diagTagValid := rfl
@[simp] theorem State.setRet_diagTag (s : State) (v : RetVal) : (s.setRet v).diagTag = s.diagTag := rfl
@[simp] theorem State.setRet_diagCause (s : State) (v : RetVal) : (s.setRet v).diagCause = s.diagCause := rfl
@[simp] theorem State.setRet_ret (s : State) (v : RetVal) : (s.setRet v).ret = some v := rfl

@[simp] theorem State.setSt_cfg (s : State) (p : PState) : (s.setSt p).cfg = s.cfg := rfl
@[simp] theorem State.setSt_call (s : State) (p : PState) : (s.setSt p).call = s.call := rfl
@[simp] theorem State.setSt_mem (s : State) (p : PState) : (s.setSt p).mem = s.mem := rfl
@[simp] theorem State.setSt_len (s : State) (p : PState) : (s.setSt p).len = s.len := rfl
@[simp] theorem State.setSt_ch (s : State) (p : PState) : (s.setSt p).ch = s.ch := rfl
@[simp] theorem State.setSt_st (s : State) (p : PState) : (s.setSt p).st = p := rfl
@[simp] theorem State.setSt_off (s : State) (p : PState) : (s.setSt p).off = s.off := rfl
@[simp] theorem State.setSt_bm (s : State) (p : PState) : (s.setSt p).bm = s.bm := rfl
@[simp] theorem State.setSt_record (s : State) (p : PState) : (s.setSt p).record = s.record := rfl
@[simp] theorem State.setSt_status (s : State) (p : PState) : (s.setSt p).status = s.status := rfl
@[simp] theorem State.setSt_offFinal (s : State) (p : PState) : (s.setSt p).offFinal = s.offFinal := rfl
@[simp] theorem State.setSt_diagCh (s : State) (p : PState) : (s.setSt p).diagCh = s.diagCh := rfl
@[simp] theorem State.setSt_diagTagValid (s : State) (p : PState) : (s.setSt p).diagTagValid = s.diagTagValid := rfl
@[simp] theorem State.setSt_diagTag (s : State) (p : PState) : (s.setSt p).diagTag = s.diagTag := rfl
@[simp] theorem State.setSt_diagCause (s : State) (p : PState) : (s.setSt p).diagCause = s.diagCause := rfl
@[simp] theorem State.setSt_ret (s : State) (p : PState) : (s.setSt p).ret = s.ret := rfl

@[simp] theorem State.enterDone_cfg (s : State) : (s.enterDone).cfg = s.cfg := rfl
@[simp] theorem State.enterDone_call (s : State) : (s.enterDone).call = s.call := rfl
@[simp] theorem State.enterDone_mem (s : State) : (s.enterDone).mem = s.mem := rfl
@[simp] theorem State.enterDone_len (s : State) : (s.enterDone).len = s.len := rfl
@[simp] theorem State.enterDone_ch (s : State) : (s.enterDone).ch = s.ch := rfl
@[simp] theorem State.enterDone_st (s : State) : (s.enterDone).st = .done := rfl
@[simp] theorem State.enterDone_off (s : State) : (s.enterDone).off = s.off := rfl
@[simp] theorem State.enterDone_bm (s : State) : (s.enterDone).bm = s.bm := rfl
@[simp] theorem State.enterDone_record (s : State) : (s.enterDone).record = s.record := rfl
@[simp] theorem State.enterDone_status (s : State) : (s.enterDone).status = some .record := rfl
@[simp] theorem State.enterDone_offFinal (s : State) : (s.enterDone).offFinal = some s.off := rfl
@[simp] theorem State.enterDone_diagCh (s : State) : (s.enterDone).diagCh = s.diagCh := rfl
@[simp] theorem State.enterDone_diagTagValid (s : State) : (s.enterDone).diagTagValid = s.diagTagValid := rfl
@[simp] theorem State.enterDone_diagTag (s : State) : (s.enterDone).diagTag = s.diagTag := rfl
@[simp] theorem State.enterDone_diagCause (s : State) : (s.enterDone).diagCause = s.diagCause := rfl
@[simp] theorem State.enterDone_ret (s : State) : (s.enterDone).ret = s.ret := rfl

@[simp] theorem State.enterNotMine_cfg (s : State) : (s.enterNotMine).cfg = s.cfg := rfl
@[simp] theorem State.enterNotMine_call (s : State) : (s.enterNotMine).call = s.call := rfl
@[simp] theorem State.enterNotMine_mem (s : State) : (s.enterNotMine).mem = s.mem := rfl
@[simp] theorem State.enterNotMine_len (s : State) : (s.enterNotMine).len = s.len := rfl
@[simp] theorem State.enterNotMine_ch (s : State) : (s.enterNotMine).ch = s.ch := rfl
@[simp] theorem State.enterNotMine_st (s : State) : (s.enterNotMine).st = .notMine := rfl
@[simp] theorem State.enterNotMine_off (s : State) : (s.enterNotMine).off = s.off := rfl
@[simp] theorem State.enterNotMine_bm (s : State) : (s.enterNotMine).bm = s.bm := rfl
@[simp] theorem State.enterNotMine_record (s : State) : (s.enterNotMine).record = s.record := rfl
@[simp] theorem State.enterNotMine_status (s : State) : (s.enterNotMine).status = some .notMine := rfl
@[simp] theorem State.enterNotMine_offFinal (s : State) : (s.enterNotMine).offFinal = some 0 := rfl
@[simp] theorem State.enterNotMine_diagCh (s : State) : (s.enterNotMine).diagCh = s.diagCh := rfl
@[simp] theorem State.enterNotMine_diagTagValid (s : State) : (s.enterNotMine).diagTagValid = s.diagTagValid := rfl
@[simp] theorem State.enterNotMine_diagTag (s : State) : (s.enterNotMine).diagTag = s.diagTag := rfl
@[simp] theorem State.enterNotMine_diagCause (s : State) : (s.enterNotMine).diagCause = s.diagCause := rfl
@[simp] theorem State.enterNotMine_ret (s : State) : (s.enterNotMine).ret = s.ret := rfl

@[simp] theorem State.takeOutOfBounds_cfg (s : State) : (s.takeOutOfBounds).cfg = s.cfg := rfl
@[simp] theorem State.takeOutOfBounds_call (s : State) : (s.takeOutOfBounds).call = s.call := rfl
@[simp] theorem State.takeOutOfBounds_mem (s : State) : (s.takeOutOfBounds).mem = s.mem := rfl
@[simp] theorem State.takeOutOfBounds_len (s : State) : (s.takeOutOfBounds).len = s.len := rfl
@[simp] theorem State.takeOutOfBounds_ch (s : State) : (s.takeOutOfBounds).ch = s.ch := rfl
@[simp] theorem State.takeOutOfBounds_st (s : State) : (s.takeOutOfBounds).st = .failed := rfl
@[simp] theorem State.takeOutOfBounds_off (s : State) : (s.takeOutOfBounds).off = s.off := rfl
@[simp] theorem State.takeOutOfBounds_bm (s : State) : (s.takeOutOfBounds).bm = s.bm := rfl
@[simp] theorem State.takeOutOfBounds_record (s : State) : (s.takeOutOfBounds).record = Record.empty := rfl
@[simp] theorem State.takeOutOfBounds_status (s : State) : (s.takeOutOfBounds).status = some .decodeError := rfl
@[simp] theorem State.takeOutOfBounds_offFinal (s : State) : (s.takeOutOfBounds).offFinal = some s.off := rfl
@[simp] theorem State.takeOutOfBounds_diagCh (s : State) : (s.takeOutOfBounds).diagCh = some s.ch := rfl
@[simp] theorem State.takeOutOfBounds_diagTagValid (s : State) : (s.takeOutOfBounds).diagTagValid = some (decide (1 ≤ s.off)) := rfl
@[simp] theorem State.takeOutOfBounds_diagTag (s : State) : (s.takeOutOfBounds).diagTag = if 1 ≤ s.off then Memory.byteAt s.mem 0 else none := rfl
@[simp] theorem State.takeOutOfBounds_diagCause (s : State) : (s.takeOutOfBounds).diagCause = some .outOfBounds := rfl
@[simp] theorem State.takeOutOfBounds_ret (s : State) : (s.takeOutOfBounds).ret = s.ret := rfl

@[simp] theorem State.start_cfg (s : State) (c : Call) : (s.start c).cfg = s.cfg := rfl
@[simp] theorem State.start_call (s : State) (c : Call) : (s.start c).call = none := rfl
@[simp] theorem State.start_mem (s : State) (c : Call) : (s.start c).mem = Memory.ofBytes c.bytes := rfl
@[simp] theorem State.start_len (s : State) (c : Call) : (s.start c).len = c.bytes.length := rfl
@[simp] theorem State.start_ch (s : State) (c : Call) : (s.start c).ch = c.ch := rfl
@[simp] theorem State.start_st (s : State) (c : Call) : (s.start c).st = .awaitingTag := rfl
@[simp] theorem State.start_off (s : State) (c : Call) : (s.start c).off = 0 := rfl
@[simp] theorem State.start_bm (s : State) (c : Call) : (s.start c).bm = s.bm := rfl
@[simp] theorem State.start_record (s : State) (c : Call) : (s.start c).record = Record.empty := rfl
@[simp] theorem State.start_status (s : State) (c : Call) : (s.start c).status = none := rfl
@[simp] theorem State.start_offFinal (s : State) (c : Call) : (s.start c).offFinal = none := rfl
@[simp] theorem State.start_diagCh (s : State) (c : Call) : (s.start c).diagCh = none := rfl
@[simp] theorem State.start_diagTagValid (s : State) (c : Call) : (s.start c).diagTagValid = none := rfl
@[simp] theorem State.start_diagTag (s : State) (c : Call) : (s.start c).diagTag = none := rfl
@[simp] theorem State.start_diagCause (s : State) (c : Call) : (s.start c).diagCause = none := rfl
@[simp] theorem State.start_ret (s : State) (c : Call) : (s.start c).ret = s.ret := rfl

@[simp] theorem State.enterNext_cfg (s : State) (k : Nat) : (s.enterNext k).cfg = s.cfg := by
  unfold State.enterNext; split <;> rfl
@[simp] theorem State.enterNext_call (s : State) (k : Nat) : (s.enterNext k).call = s.call := by
  unfold State.enterNext; split <;> rfl
@[simp] theorem State.enterNext_mem (s : State) (k : Nat) : (s.enterNext k).mem = s.mem := by
  unfold State.enterNext; split <;> rfl
@[simp] theorem State.enterNext_len (s : State) (k : Nat) : (s.enterNext k).len = s.len := by
  unfold State.enterNext; split <;> rfl
@[simp] theorem State.enterNext_ch (s : State) (k : Nat) : (s.enterNext k).ch = s.ch := by
  unfold State.enterNext; split <;> rfl
@[simp] theorem State.enterNext_off (s : State) (k : Nat) : (s.enterNext k).off = s.off := by
  unfold State.enterNext; split <;> rfl
@[simp] theorem State.enterNext_bm (s : State) (k : Nat) : (s.enterNext k).bm = s.bm := by
  unfold State.enterNext; split <;> rfl
@[simp] theorem State.enterNext_record (s : State) (k : Nat) : (s.enterNext k).record = s.record := by
  unfold State.enterNext; split <;> rfl
@[simp] theorem State.enterNext_diagCh (s : State) (k : Nat) : (s.enterNext k).diagCh = s.diagCh := by
  unfold State.enterNext; split <;> rfl
@[simp] theorem State.enterNext_diagTagValid (s : State) (k : Nat) : (s.enterNext k).diagTagValid = s.diagTagValid := by
  unfold State.enterNext; split <;> rfl
@[simp] theorem State.enterNext_diagTag (s : State) (k : Nat) : (s.enterNext k).diagTag = s.diagTag := by
  unfold State.enterNext; split <;> rfl
@[simp] theorem State.enterNext_diagCause (s : State) (k : Nat) : (s.enterNext k).diagCause = s.diagCause := by
  unfold State.enterNext; split <;> rfl
@[simp] theorem State.enterNext_ret (s : State) (k : Nat) : (s.enterNext k).ret = s.ret := by
  unfold State.enterNext; split <;> rfl

@[simp] theorem State.enterNext_st (s : State) (k : Nat) : (s.enterNext k).st = nextState k s.bm := by
  unfold State.enterNext; split <;> simp_all

/-- Not the last group: the decode goes on, no output is written (R165). -/
theorem State.enterNext_of_field {s : State} {k : Nat} {j : Fin 7} (h : nextState k s.bm = .field j) :
    s.enterNext k = s.setSt (.field j) := by
  simp [State.enterNext, h]

/-- No group is left: the decode ends in `Done` (R165, R173). -/
theorem State.enterNext_of_done {s : State} {k : Nat} (h : nextState k s.bm = .done) :
    s.enterNext k = s.enterDone := by
  simp [State.enterNext, h]

@[simp] theorem Record.valid_empty (f : Field) : Record.empty.valid f = false := by cases f <;> rfl

end Sys2Proof.Machine
end

