-- ==== Sys2Proof/Laws/Ops.lean ====
section
/-! SUPPORT. What each shared operation can do, said once: a read at the cursor, the next-state function, the end of
an operation, the step of the automaton. Later proofs cite these instead of unfolding the operations. -/

namespace Sys2Proof.Machine

/-! ### Assembling bytes -/

theorem memRead1_of_byte {m : Memory} {a : Nat} {b : Byte} (h : Memory.byteAt m a = some b) :
    memRead1 m a = some b := h

theorem memRead2_of_bytes {m : Memory} {a : Nat} {b0 b1 : Byte} (h0 : Memory.byteAt m a = some b0)
    (h1 : Memory.byteAt m (a + 1) = some b1) : memRead2 m a = some (b0 ++ b1) := by
  simp [memRead2, h0, h1]

theorem memRead3_of_bytes {m : Memory} {a : Nat} {b0 b1 b2 : Byte} (h0 : Memory.byteAt m a = some b0)
    (h1 : Memory.byteAt m (a + 1) = some b1) (h2 : Memory.byteAt m (a + 2) = some b2) :
    memRead3 m a = some (b0 ++ b1 ++ b2) := by
  simp [memRead3, h0, h1, h2]

/-! ### A read at the cursor -/

/-- Enough bytes remain and the buffer has them: the value, and `OFF` advances by the width (R100, R106). -/
theorem readAt_ok {α : Type} {n : Nat} {f : Memory → Nat → Option α} {s : State} {v : α}
    (h : s.off + n ≤ s.len) (hv : f s.mem s.off = some v) : readAt n f s = .ok v (s.setOff (s.off + n)) := by
  simp [readAt, h, hv]

/-- Fewer bytes remain than required: the exception, in the state as it was (R100). -/
theorem readAt_raised {α : Type} {n : Nat} {f : Memory → Nat → Option α} {s : State} (h : s.len < s.off + n) :
    readAt n f s = .raised n s := by
  simp [readAt, Nat.not_le.mpr h]

/-- Everything a read at the cursor can do. -/
theorem readAt_cases {α : Type} (n : Nat) (f : Memory → Nat → Option α) (s : State) :
    (∃ v, s.off + n ≤ s.len ∧ f s.mem s.off = some v ∧ readAt n f s = .ok v (s.setOff (s.off + n))) ∨
    (s.len < s.off + n ∧ readAt n f s = .raised n s) ∨
    (s.off + n ≤ s.len ∧ f s.mem s.off = none ∧ readAt n f s = .stuck (.absentByte s.off)) := by
  by_cases h : s.off + n ≤ s.len
  · cases hv : f s.mem s.off with
    | some v => exact .inl ⟨v, h, rfl, readAt_ok h hv⟩
    | none => exact .inr (.inr ⟨h, rfl, by simp [readAt, h, hv]⟩)
  · exact .inr (.inl ⟨by omega, readAt_raised (by omega)⟩)

/-! ### How an operation ends -/

@[simp] theorem OpResult.map_ok {α β : Type} (f : α → β) (v : α) (s : State) :
    (OpResult.ok v s).map f = .ok (f v) s := rfl

@[simp] theorem OpResult.map_raised {α β : Type} (f : α → β) (n : Nat) (s : State) :
    (OpResult.raised n s : OpResult α).map f = .raised n s := rfl

@[simp] theorem OpResult.map_stuck {α β : Type} (f : α → β) (e : Fault) :
    (OpResult.stuck e : OpResult α).map f = .stuck e := rfl

@[simp] theorem OpResult.finish_ok {α : Type} (v : α) (s : State)
    (k : α → State → Host.Outcome State Fault Refusal) : (OpResult.ok v s).finish k = k v s := rfl

@[simp] theorem OpResult.finish_raised {α : Type} (n : Nat) (s : State)
    (k : α → State → Host.Outcome State Fault Refusal) :
    (OpResult.raised n s : OpResult α).finish k = .next s.takeOutOfBounds := rfl

@[simp] theorem OpResult.finish_stuck {α : Type} (e : Fault)
    (k : α → State → Host.Outcome State Fault Refusal) : (OpResult.stuck e : OpResult α).finish k = .fault e := rfl

@[simp] theorem OpResult.hold_ok {α : Type} (g : α → RetVal) (v : α) (s : State) :
    (OpResult.ok v s).hold g = .next (s.setRet (g v)) := rfl

@[simp] theorem OpResult.hold_raised {α : Type} (g : α → RetVal) (n : Nat) (s : State) :
    (OpResult.raised n s : OpResult α).hold g = .next s.takeOutOfBounds := rfl

@[simp] theorem OpResult.hold_stuck {α : Type} (g : α → RetVal) (e : Fault) :
    (OpResult.stuck e : OpResult α).hold g = .fault e := rfl

/-- An operation whose rest answers a next state went on with a value, or took the exception. -/
theorem OpResult.finish_eq_next {α : Type} {r : OpResult α} {k : α → State → Host.Outcome State Fault Refusal}
    {t : State} (h : r.finish k = .next t) :
    (∃ v s, r = .ok v s ∧ k v s = .next t) ∨ (∃ n s, r = .raised n s ∧ t = s.takeOutOfBounds) := by
  cases r with
  | ok v s => exact .inl ⟨v, s, rfl, h⟩
  | raised n s => exact .inr ⟨n, s, rfl, by simpa using h.symm⟩
  | stuck e => simp at h

/-! ### The named reads, in terms of the bytes at the cursor -/

theorem readU8_ok {s : State} {b : Byte} (h : s.off + 1 ≤ s.len) (h0 : Memory.byteAt s.mem s.off = some b) :
    readU8 s = .ok b (s.setOff (s.off + 1)) := readAt_ok h (memRead1_of_byte h0)

theorem readU16_ok {s : State} {b0 b1 : Byte} (h : s.off + 2 ≤ s.len)
    (h0 : Memory.byteAt s.mem s.off = some b0) (h1 : Memory.byteAt s.mem (s.off + 1) = some b1) :
    readU16 s = .ok (b0 ++ b1) (s.setOff (s.off + 2)) := readAt_ok h (memRead2_of_bytes h0 h1)

theorem readU24_ok {s : State} {b0 b1 b2 : Byte} (h : s.off + 3 ≤ s.len)
    (h0 : Memory.byteAt s.mem s.off = some b0) (h1 : Memory.byteAt s.mem (s.off + 1) = some b1)
    (h2 : Memory.byteAt s.mem (s.off + 2) = some b2) :
    readU24 s = .ok (b0 ++ b1 ++ b2) (s.setOff (s.off + 3)) := readAt_ok h (memRead3_of_bytes h0 h1 h2)

theorem readU8_raised {s : State} (h : s.len < s.off + 1) : readU8 s = .raised 1 s := readAt_raised h

theorem readU16_raised {s : State} (h : s.len < s.off + 2) : readU16 s = .raised 2 s := readAt_raised h

theorem readU24_raised {s : State} (h : s.len < s.off + 3) : readU24 s = .raised 3 s := readAt_raised h

/-! ### The next-state function -/

/-- Everything the next-state function can answer (R165). -/
theorem nextState_cases (k : Nat) (b : Byte) :
    (∃ j : Fin 7, k ≤ j.val ∧ b.getLsbD j.val = true ∧
      (∀ i : Fin 7, k ≤ i.val → i < j → b.getLsbD i.val = false) ∧ nextState k b = .field j) ∨
    ((∀ j : Fin 7, k ≤ j.val → b.getLsbD j.val = false) ∧ nextState k b = .done) := by
  cases h : firstGroup k b with
  | some j =>
    obtain ⟨h1, h2, h3⟩ := (firstGroup_eq_some_iff k b j).mp h
    exact .inl ⟨j, h1, h2, h3, by simp [nextState, h]⟩
  | none => exact .inr ⟨(firstGroup_eq_none_iff k b).mp h, by simp [nextState, h]⟩

/-! ### The step -/

/-- A step of one operation is that operation. -/
theorem runSelected_singleton (p : PState) (i : Instr) (s : State) : runSelected p [i] s = exec i s := by
  rw [runSelected]
  cases exec i s with
  | next t => by_cases h : t.st = p <;> simp [h, runSelected]
  | fault f => rfl
  | refused r => rfl

/-- Everything a step that answers a next state did. -/
theorem step_cases {s t : State} (h : step s = .next t) :
    (∃ c, s.call = some c ∧ s.st.running = false ∧ t = s.start c) ∨
    (s.call = none ∧ runSelected s.st (selected s.st) s = .next t) := by
  rw [step, stepOnce] at h
  cases hc : s.call with
  | some c =>
    rw [hc] at h
    by_cases hr : s.st.running = true
    · simp [acceptCall, hr] at h
    · refine .inl ⟨c, rfl, by simpa using hr, ?_⟩
      simpa [acceptCall, hr] using h.symm
  | none => rw [hc] at h; exact .inr ⟨rfl, h⟩

end Sys2Proof.Machine
end

