-- ==== Sys2Proof/Laws/Exec.lean ====
section
/-! SUPPORT. One inversion of `exec`: everything an instruction that answers a next state did. Later proofs split on
`Effect` instead of unfolding the meanings. -/

namespace Sys2Proof.Machine

/-- What instruction `i` did to `s` to reach the state given last: its effect, with the bytes it read, or the abort,
with where the failing read began. -/
inductive Effect (s : State) : Instr → State → Prop where
  | foreignChannel : s.ch ≠ s.cfg.channelId → Effect s .chgate s.enterNotMine
  | ownChannel : s.ch = s.cfg.channelId → Effect s .chgate s
  | foreignTag (b : Byte) : s.off + 1 ≤ s.len → Memory.byteAt s.mem 0 = some b → b ≠ Config.tag →
      Effect s .tagchk s.enterNotMine
  | ownTag : s.off + 1 ≤ s.len → Memory.byteAt s.mem 0 = some Config.tag →
      Effect s .tagchk ((s.setOff 1).setSt .awaitingBitmap)
  | bitmap (b : Byte) : s.off + 1 ≤ s.len → memRead1 s.mem s.off = some b →
      Effect s .bmload (((s.setOff (s.off + 1)).setBm b).enterNext 0)
  | group0 (v : Half) : s.off + 2 ≤ s.len → memRead2 s.mem s.off = some v →
      Effect s .field0 (((s.setOff (s.off + 2)).setRecord
        { s.record with batteryVoltage := some (voltage (signed16 v)) }).enterNext 1)
  | group1 (v : Half) : s.off + 2 ≤ s.len → memRead2 s.mem s.off = some v →
      Effect s .field1 (((s.setOff (s.off + 2)).setRecord
        { s.record with busVoltage := some (voltage (signed16 v)) }).enterNext 2)
  | group2 (v : Byte) : s.off + 1 ≤ s.len → memRead1 s.mem s.off = some v →
      Effect s .field2 (((s.setOff (s.off + 1)).setRecord
        { s.record with bootCount := some v }).enterNext 3)
  | group3 (v u : Half) : s.off + 4 ≤ s.len → memRead2 s.mem s.off = some v →
      memRead2 s.mem (s.off + 2) = some u →
      Effect s .field3 (((s.setOff (s.off + 4)).setRecord (writeClimate s.cfg.deriveAttached
        (temperature (signed16 v)) (humidity u) s.record)).enterNext 4)
  | group4 (v : Word24) : s.off + 3 ≤ s.len → memRead3 s.mem s.off = some v →
      Effect s .field4 (((s.setOff (s.off + 3)).setRecord
        { s.record with lux := some (cfDecode v) }).enterNext 5)
  | group5 (v : Half) : s.off + 2 ≤ s.len → memRead2 s.mem s.off = some v →
      Effect s .field5 (((s.setOff (s.off + 2)).setRecord
        { s.record with probeOneTemperatureC := some (temperature (signed16 v)) }).enterNext 6)
  | group6 (v : Half) : s.off + 2 ≤ s.len → memRead2 s.mem s.off = some v →
      Effect s .field6 (((s.setOff (s.off + 2)).setRecord
        { s.record with probeTwoTemperatureC := some (temperature (signed16 v)) }).enterNext 7)
  | returned (i : Instr) (v : RetVal) : isFrameStep i = false → s.off + cursorWidth i ≤ s.len →
      Effect s i ((s.setOff (s.off + cursorWidth i)).setRet v)
  | computed (i : Instr) (v : RetVal) : isFrameStep i = false → cursorWidth i = 0 → Effect s i (s.setRet v)
  | aborted (i : Instr) : i ≠ .chgate → s.len < s.off + 4 → Effect s i s.takeOutOfBounds
  | abortedAtHumidity : s.off + 2 ≤ s.len → s.len < s.off + 4 →
      Effect s .field3 (s.setOff (s.off + 2)).takeOutOfBounds

theorem next_injective {a b : State} (h : (Host.Outcome.next a : Host.Outcome State Fault Refusal) = .next b) :
    b = a := by
  cases h; rfl

@[simp] theorem OpResult.map_map {α β γ : Type} (r : OpResult α) (f : α → β) (g : β → γ) :
    (r.map f).map g = r.map (g ∘ f) := by
  cases r <;> rfl

/-- A read at the cursor whose rest answers a next state had its bytes, or was aborted. -/
theorem readAt_finish {α : Type} {n : Nat} {f : Memory → Nat → Option α} {s t : State}
    {k : α → State → Host.Outcome State Fault Refusal} (h : (readAt n f s).finish k = .next t) :
    (∃ v, s.off + n ≤ s.len ∧ f s.mem s.off = some v ∧ k v (s.setOff (s.off + n)) = .next t) ∨
    (s.len < s.off + n ∧ t = s.takeOutOfBounds) := by
  rcases readAt_cases n f s with ⟨v, h1, h2, h3⟩ | ⟨h1, h3⟩ | ⟨h1, h2, h3⟩
  · rw [h3] at h; exact .inl ⟨v, h1, h2, h⟩
  · rw [h3] at h; exact .inr ⟨h1, next_injective h⟩
  · rw [h3] at h; simp at h

/-- The same for a read with a conversion of its value. -/
theorem readAt_map_finish {α β : Type} {n : Nat} {f : Memory → Nat → Option α} {g : α → β} {s t : State}
    {k : β → State → Host.Outcome State Fault Refusal} (h : ((readAt n f s).map g).finish k = .next t) :
    (∃ v, s.off + n ≤ s.len ∧ f s.mem s.off = some v ∧ k (g v) (s.setOff (s.off + n)) = .next t) ∨
    (s.len < s.off + n ∧ t = s.takeOutOfBounds) := by
  rcases readAt_cases n f s with ⟨v, h1, h2, h3⟩ | ⟨h1, h3⟩ | ⟨h1, h2, h3⟩
  · rw [h3] at h; exact .inl ⟨v, h1, h2, h⟩
  · rw [h3] at h; exact .inr ⟨h1, next_injective h⟩
  · rw [h3] at h; simp at h

/-- A micro-operation that reads: it returned a value with its cursor advance, or was aborted. -/
theorem Effect.of_hold {α : Type} {n : Nat} {f : Memory → Nat → Option α} {g : α → RetVal} {s t : State}
    (i : Instr) (hi : isFrameStep i = false) (hn : cursorWidth i = n) (hc : i ≠ .chgate) (h4 : n ≤ 4)
    (h : (readAt n f s).hold g = .next t) : Effect s i t := by
  rcases readAt_finish h with ⟨v, h1, _, h3⟩ | ⟨h1, rfl⟩
  · rw [next_injective h3, ← hn]; exact .returned i _ hi (hn ▸ h1)
  · exact .aborted i hc (by omega)

theorem Effect.of_map_hold {α β : Type} {n : Nat} {f : Memory → Nat → Option α} {e : α → β} {g : β → RetVal}
    {s t : State} (i : Instr) (hi : isFrameStep i = false) (hn : cursorWidth i = n) (hc : i ≠ .chgate)
    (h4 : n ≤ 4) (h : ((readAt n f s).map e).hold g = .next t) : Effect s i t := by
  rcases readAt_map_finish h with ⟨v, h1, _, h3⟩ | ⟨h1, rfl⟩
  · rw [next_injective h3, ← hn]; exact .returned i _ hi (hn ▸ h1)
  · exact .aborted i hc (by omega)

/-- Everything an instruction that answers a next state did. -/
theorem exec_effect {i : Instr} {s t : State} (h : exec i s = .next t) : Effect s i t := by
  cases i with
  | chgate =>
    simp only [exec, execChgate] at h
    split at h
    · rw [next_injective h]; exact .foreignChannel ‹_›
    · rw [next_injective h]; exact .ownChannel (not_not.mp ‹_›)
  | tagchk =>
    simp only [exec, execTagchk, memRead1] at h
    split at h
    · rw [next_injective h]; exact .aborted _ (by simp) (by omega)
    · split at h
      · cases h
      · split at h
        · rw [next_injective h]; exact .foreignTag _ (by omega) ‹_› ‹_›
        · rename_i hb hn
          rw [next_injective h]; exact .ownTag (by omega) (not_not.mp hn ▸ hb)
  | bmload =>
    rcases readAt_finish h with ⟨v, h1, h2, h3⟩ | ⟨h1, rfl⟩
    · rw [next_injective h3]; exact .bitmap v h1 h2
    · exact .aborted _ (by simp) (by omega)
  | field0 =>
    simp only [exec, execField0, readVolt, readI16, OpResult.map_map, readU16] at h
    rcases readAt_map_finish h with ⟨v, h1, h2, h3⟩ | ⟨h1, rfl⟩
    · rw [next_injective h3]; exact .group0 v h1 h2
    · exact .aborted _ (by simp) (by omega)
  | field1 =>
    simp only [exec, execField1, readVolt, readI16, OpResult.map_map, readU16] at h
    rcases readAt_map_finish h with ⟨v, h1, h2, h3⟩ | ⟨h1, rfl⟩
    · rw [next_injective h3]; exact .group1 v h1 h2
    · exact .aborted _ (by simp) (by omega)
  | field2 =>
    rcases readAt_finish h with ⟨v, h1, h2, h3⟩ | ⟨h1, rfl⟩
    · rw [next_injective h3]; exact .group2 v h1 h2
    · exact .aborted _ (by simp) (by omega)
  | field3 =>
    simp only [exec, execField3, readTemp, readI16, OpResult.map_map, readU16, readRh] at h
    rcases readAt_map_finish h with ⟨v, h1, h2, h3⟩ | ⟨h1, rfl⟩
    · rcases readAt_map_finish h3 with ⟨u, g1, g2, g3⟩ | ⟨g1, rfl⟩
      · rw [next_injective g3]; exact .group3 v u (by simp at g1; omega) h2 g2
      · exact .abortedAtHumidity h1 (by simp at g1; omega)
    · exact .aborted _ (by simp) (by omega)
  | field4 =>
    simp only [exec, execField4, readLux, readU24] at h
    rcases readAt_map_finish h with ⟨v, h1, h2, h3⟩ | ⟨h1, rfl⟩
    · rw [next_injective h3]; exact .group4 v h1 h2
    · exact .aborted _ (by simp) (by omega)
  | field5 =>
    simp only [exec, execField5, readTemp, readI16, OpResult.map_map, readU16] at h
    rcases readAt_map_finish h with ⟨v, h1, h2, h3⟩ | ⟨h1, rfl⟩
    · rw [next_injective h3]; exact .group5 v h1 h2
    · exact .aborted _ (by simp) (by omega)
  | field6 =>
    simp only [exec, execField6, readTemp, readI16, OpResult.map_map, readU16] at h
    rcases readAt_map_finish h with ⟨v, h1, h2, h3⟩ | ⟨h1, rfl⟩
    · rw [next_injective h3]; exact .group6 v h1 h2
    · exact .aborted _ (by simp) (by omega)
  | rdu8 => exact .of_hold .rdu8 rfl rfl (by simp) (by decide) h
  | rdu16 => exact .of_hold .rdu16 rfl rfl (by simp) (by decide) h
  | rdi16 => exact .of_map_hold .rdi16 rfl rfl (by simp) (by decide) h
  | rdu24 => exact .of_hold .rdu24 rfl rfl (by simp) (by decide) h
  | cfdec w => rw [next_injective h]; exact .computed _ _ rfl rfl
  | cfdecInf sgn => rw [next_injective h]; exact .computed _ _ rfl rfl
  | cfdecNan sgn m => rw [next_injective h]; exact .computed _ _ rfl rfl
  | cfdecNorm sgn e m => rw [next_injective h]; exact .computed _ _ rfl rfl
  | cfdecDen sgn m => rw [next_injective h]; exact .computed _ _ rfl rfl
  | volt =>
    simp only [exec, execVolt, readVolt, readI16, OpResult.map_map, readU16] at h
    exact .of_map_hold .volt rfl rfl (by simp) (by decide) h
  | temp =>
    simp only [exec, execTemp, readTemp, readI16, OpResult.map_map, readU16] at h
    exact .of_map_hold .temp rfl rfl (by simp) (by decide) h
  | rh => exact .of_map_hold .rh rfl rfl (by simp) (by decide) h
  | lux => exact .of_map_hold .lux rfl rfl (by simp) (by decide) h
  | boot => exact .of_hold .boot rfl rfl (by simp) (by decide) h

/-- What taking OutOfBounds leaves, in the terms claims use. -/
theorem takeOutOfBounds_abortedFrom (s : State) : AbortedFrom s s.takeOutOfBounds :=
  ⟨rfl, rfl, rfl, rfl, rfl, rfl, rfl, rfl, Record.valid_empty, rfl, rfl, rfl, rfl, rfl, rfl, rfl, rfl⟩

/-- The next-state function answers a group or `Done`. -/
theorem nextState_ne_failed (k : Nat) (b : Byte) : nextState k b ≠ .failed := by
  rcases nextState_cases k b with ⟨j, _, _, _, h⟩ | ⟨_, h⟩ <;> simp [h]

/-- Entering a state in which the decode goes on writes no output. -/
theorem enterNext_outputs {s : State} {k : Nat} (h : isTerminal (nextState k s.bm) = false) :
    (s.enterNext k).status = s.status ∧ (s.enterNext k).offFinal = s.offFinal := by
  rcases nextState_cases k s.bm with ⟨j, _, _, _, hj⟩ | ⟨_, hd⟩
  · simp [State.enterNext_of_field hj]
  · simp [hd, isTerminal] at h

end Sys2Proof.Machine
end

