-- ==== Sys2Proof/Laws/Numbers.lean ====
section
/-! SUPPORT. The numbers behind the operand forms: the signed reading of two bytes, the fields of a compact float word
in arithmetic, and rounding to the nearest integer. -/

namespace Sys2Proof.Machine

/-- The signed reading of two bytes, in arithmetic (R103). -/
theorem signed16_append (b0 b1 : Byte) :
    signed16 (b0 ++ b1) = if b0.toNat < 128 then ((b0.toNat * 256 + b1.toNat : Nat) : Int)
      else ((b0.toNat * 256 + b1.toNat : Nat) : Int) - 65536 := by
  have hbit : (b0 ++ b1 : Half).getLsbD 15 = decide (128 ≤ b0.toNat) := by
    have h : b0.getLsbD 7 = decide (128 ≤ b0.toNat) := by revert b0; decide
    rw [BitVec.getLsbD_append, ← h]
    rfl
  rw [signed16, hbit, toNat_append_bytes2]
  by_cases h : b0.toNat < 128
  · simp [h]
  · simp [h, Nat.not_lt.mp h]

/-- The humidity of two bytes, in arithmetic (R143). -/
theorem humidity_append (b0 b1 : Byte) : humidity (b0 ++ b1) = humidityU16 b0 b1 := by
  rw [humidity, humidityU16, toNat_append_bytes2]
  simp [Config.rhMul, Config.rhDiv]

theorem cfMant_toNat (w : Word24) : (cfMant w).toNat = cfM w.toNat := by
  simp [cfMant, cfM, BitVec.extractLsb'_toNat]

theorem cfExp_toNat (w : Word24) : (cfExp w).toNat = cfE w.toNat := by
  simp [cfExp, cfE, BitVec.extractLsb'_toNat, Nat.shiftRight_eq_div_pow]

theorem cfS_lt (w : Word24) : cfS w.toNat < 2 := by
  have := w.isLt
  rw [cfS]; omega

theorem cfSign_eq (w : Word24) : cfSign w = decide (cfS w.toNat = 1) := by
  have h := w.isLt
  rw [cfSign, BitVec.getLsbD, Nat.testBit_eq_decide_div_mod_eq, cfS]
  congr 1
  rw [show (2 : Nat) ^ 23 = 8388608 by norm_num, eq_iff_iff]
  omega

theorem ulp_pos (q : Rat) : 0 < ulp q := by
  unfold ulp; positivity

/-- Rounding to the nearest integer is off by at most one half (D6). -/
theorem abs_roundHalfEven_sub_le (x : Rat) : |(roundHalfEven x : Rat) - x| ≤ 1 / 2 := by
  have h1 : (x.floor : Rat) ≤ x := Int.floor_le x
  have h2 : x < x.floor + 1 := Int.lt_floor_add_one x
  unfold roundHalfEven
  simp only
  split_ifs <;> rw [abs_le] <;> push_cast <;> constructor <;> linarith

end Sys2Proof.Machine
end

