-- ==== Sys2Proof/Laws/PerInstr.lean ====
section
/-! SUPPORT. Facts about each instruction as syntax: the encoder gives an instruction as many bytes as its place in the
frame takes (R73, R76, R74, R75). -/

namespace Sys2Proof

/-- The number of bytes the table gives the words at a place (R71, R72, R86). -/
def slotBytes : Slot → Nat
  | .gate => 0
  | .tag => 1
  | .bitmap => 1
  | .select _ => 1
  | .operand .rdu8 => 1
  | .operand .boot => 1
  | .operand .rdu16 => 2
  | .operand .rdi16 => 2
  | .operand .volt => 2
  | .operand .temp => 2
  | .operand .rh => 2
  | .operand .rdu24 => 3
  | .operand .lux => 3
  | .operand .cfdec => 3
  | .cfClass => 3

/-- The words of an instruction fill its place. -/
def Laws.EncodedLength.Statement (i : Instr) : Prop := (encode i).length = slotBytes i.slot

theorem Laws.EncodedLength.chgate : Laws.EncodedLength.Statement .chgate := rfl
theorem Laws.EncodedLength.tagchk : Laws.EncodedLength.Statement .tagchk := rfl
theorem Laws.EncodedLength.bmload : Laws.EncodedLength.Statement .bmload := rfl
theorem Laws.EncodedLength.field0 : Laws.EncodedLength.Statement .field0 := rfl
theorem Laws.EncodedLength.field1 : Laws.EncodedLength.Statement .field1 := rfl
theorem Laws.EncodedLength.field2 : Laws.EncodedLength.Statement .field2 := rfl
theorem Laws.EncodedLength.field3 : Laws.EncodedLength.Statement .field3 := rfl
theorem Laws.EncodedLength.field4 : Laws.EncodedLength.Statement .field4 := rfl
theorem Laws.EncodedLength.field5 : Laws.EncodedLength.Statement .field5 := rfl
theorem Laws.EncodedLength.field6 : Laws.EncodedLength.Statement .field6 := rfl
theorem Laws.EncodedLength.rdu8 : Laws.EncodedLength.Statement .rdu8 := rfl
theorem Laws.EncodedLength.rdu16 : Laws.EncodedLength.Statement .rdu16 := rfl
theorem Laws.EncodedLength.rdi16 : Laws.EncodedLength.Statement .rdi16 := rfl
theorem Laws.EncodedLength.rdu24 : Laws.EncodedLength.Statement .rdu24 := rfl
theorem Laws.EncodedLength.cfdec (w : Word24) : Laws.EncodedLength.Statement (.cfdec w) := rfl
theorem Laws.EncodedLength.cfdecInf (sgn : Bool) : Laws.EncodedLength.Statement (.cfdecInf sgn) := rfl
theorem Laws.EncodedLength.cfdecNan (sgn : Bool) (m : Half) : Laws.EncodedLength.Statement (.cfdecNan sgn m) := rfl
theorem Laws.EncodedLength.cfdecNorm (sgn : Bool) (e : BitVec 7) (m : Half) : Laws.EncodedLength.Statement (.cfdecNorm sgn e m) := rfl
theorem Laws.EncodedLength.cfdecDen (sgn : Bool) (m : Half) : Laws.EncodedLength.Statement (.cfdecDen sgn m) := rfl
theorem Laws.EncodedLength.volt : Laws.EncodedLength.Statement .volt := rfl
theorem Laws.EncodedLength.temp : Laws.EncodedLength.Statement .temp := rfl
theorem Laws.EncodedLength.rh : Laws.EncodedLength.Statement .rh := rfl
theorem Laws.EncodedLength.lux : Laws.EncodedLength.Statement .lux := rfl
theorem Laws.EncodedLength.boot : Laws.EncodedLength.Statement .boot := rfl

end Sys2Proof
end

