-- ==== Sys2Proof/Tests/Slice0.lean ====
section
/-! SUPPORT. The model's own tests: ill-formed operands are refused, words written out from the encodings decode to their
instructions, one step of each instruction on a vector of 95_test_vectors.md or an example of the rules, and a witness
for the hypotheses of each statement. -/

namespace Sys2Proof.Tests

open Sys2Proof.Machine

/-! ### Ill-formed operands (opcode_table.json, constraint columns) -/

theorem test_nan_with_mantissa_zero_is_ill_formed : (Instr.cfdecNan true 0).wellFormed = false := by decide
theorem test_norm_with_exponent_zero_is_ill_formed : (Instr.cfdecNorm false 0 5).wellFormed = false := by decide
theorem test_norm_with_exponent_127_is_ill_formed : (Instr.cfdecNorm true 127 5).wellFormed = false := by decide
theorem test_norm_with_exponent_126_is_well_formed : (Instr.cfdecNorm true 126 5).wellFormed = true := by decide

/-! ### Decoding words written out from the encodings (R71, R72, R75, R81, R86) -/

/-- The instruction decoded first. -/
def first (slot : Slot) (bytes : List Byte) : Option Instr :=
  match decode slot bytes with
  | .ok (i, _) => some i
  | .error _ => none

theorem test_decode_chgate : first .gate [0xFF] = some .chgate := by decide
theorem test_decode_tagchk : first .tag [0b00101010] = some .tagchk := by decide
theorem test_decode_bmload : first .bitmap [0b10000000] = some .bmload := by decide
theorem test_decode_field0 : first (.select 0) [0b10000001] = some .field0 := by decide
theorem test_decode_field1 : first (.select 0) [0b00010010] = some .field1 := by decide
theorem test_decode_field2 : first (.select 0) [0b00000100] = some .field2 := by decide
theorem test_decode_field3 : first (.select 1) [0b00001001] = some .field3 := by decide
theorem test_decode_field4 : first (.select 2) [0b00010010] = some .field4 := by decide
theorem test_decode_field5 : first (.select 0) [0b00100000] = some .field5 := by decide
theorem test_decode_field6 : first (.select 6) [0b01111111] = some .field6 := by decide
theorem test_decode_rdu8 : first (.operand .rdu8) [0x7F] = some .rdu8 := by decide
theorem test_decode_rdu16 : first (.operand .rdu16) [0x12, 0x34] = some .rdu16 := by decide
theorem test_decode_rdi16 : first (.operand .rdi16) [0xF3, 0x34] = some .rdi16 := by decide
theorem test_decode_rdu24 : first (.operand .rdu24) [0x45, 0xF4, 0x00] = some .rdu24 := by decide
theorem test_decode_cfdec : first (.operand .cfdec) [0x45, 0xF4, 0x00] = some (.cfdec 0x45F400) := by decide
theorem test_decode_volt : first (.operand .volt) [0x10, 0x00] = some .volt := by decide
theorem test_decode_temp : first (.operand .temp) [0x15, 0x80] = some .temp := by decide
theorem test_decode_rh : first (.operand .rh) [0x80, 0x00] = some .rh := by decide
theorem test_decode_lux : first (.operand .lux) [0x4C, 0xE2, 0x40] = some .lux := by decide
theorem test_decode_boot : first (.operand .boot) [0x2A] = some .boot := by decide
/-- Sign 1, exponent 1111111, mantissa 0. -/
theorem test_decode_inf : first .cfClass [0b11111111, 0, 0] = some (.cfdecInf true) := by decide
/-- Sign 0, exponent 1111111, mantissa 1. -/
theorem test_decode_nan : first .cfClass [0b01111111, 0, 1] = some (.cfdecNan false 1) := by decide
/-- Sign 1, exponent 1000000, mantissa 1000000000000000. -/
theorem test_decode_norm : first .cfClass [0b11000000, 0b10000000, 0] = some (.cfdecNorm true 64 0x8000) := by
  decide
/-- Sign 1, exponent 0000000, mantissa 1111111111111111. -/
theorem test_decode_den : first .cfClass [0b10000000, 0xFF, 0xFF] = some (.cfdecDen true 0xFFFF) := by decide
theorem test_other_tag_is_rejected_by_name : decode .tag [0x2B] = .error .otherTag := by rfl
theorem test_reserved_bit_alone_selects_no_group : decode (.select 0) [0x80] = .error .noGroup := by rfl
theorem test_short_operand_is_rejected_by_name : decode (.operand .lux) [0x45, 0xF4] = .error .missingByte := by rfl

/-! ### One step of each instruction -/

/-- A state of an instance with channel 7, called on channel 7, with a frame in the buffer. -/
def at_ (bytes : List Byte) (st : PState) (off : Nat) (bm : Byte) : State :=
  { State.reset with
    cfg := { channelId := 7, deriveAttached := false }
    mem := Memory.ofBytes bytes
    len := bytes.length
    ch := 7
    st := st
    off := off
    bm := bm }

/-- The next state, if there is one. -/
def nextOf (o : Host.Outcome State Fault Refusal) : Option State :=
  match o with
  | .next s => some s
  | .fault _ => none
  | .refused _ => none

/-- What a micro-operation returned and where it left the cursor. -/
def retOff (o : Host.Outcome State Fault Refusal) : Option (Option RetVal × Nat) :=
  (nextOf o).map fun s => (s.ret, s.off)

/-- Parser state and cursor. -/
def stOff (o : Host.Outcome State Fault Refusal) : Option (PState × Nat) := (nextOf o).map fun s => (s.st, s.off)

/-- Vector RD1. -/
theorem test_rdu8 : retOff (exec .rdu8 (at_ [0x7F] .idle 0 0)) = some (some (.u8 127), 1) := by decide
/-- Vector RD9: an odd offset. -/
theorem test_rdu16_odd : retOff (exec .rdu16 (at_ [0xAA, 0x12, 0x34] .idle 1 0)) = some (some (.u16 4660), 3) := by
  decide
/-- Vector RD10: one byte remains and is not consumed. -/
theorem test_rdu16_short : stOff (exec .rdu16 (at_ [0xAA, 0x12] .idle 1 0)) = some (.failed, 1) := by decide
/-- Vector RD15. -/
theorem test_rdi16 : retOff (exec .rdi16 (at_ [0xF3, 0x34] .idle 0 0)) = some (some (.i16 (-3276)), 2) := by decide
/-- Vector RD11. -/
theorem test_rdi16_max : retOff (exec .rdi16 (at_ [0x7F, 0xFF] .idle 0 0)) = some (some (.i16 32767), 2) := by decide
/-- Vector RD22. -/
theorem test_rdu24 : retOff (exec .rdu24 (at_ [0x00, 0x11, 0x22, 0x33] .idle 1 0)) =
    some (some (.u24 1122867), 4) := by decide
/-- Vector RD21. -/
theorem test_rdu24_short : stOff (exec .rdu24 (at_ [0x45, 0xF4] .idle 0 0)) = some (.failed, 0) := by decide
/-- Vector CF17. -/
theorem test_cfdec : retOff (exec (.cfdec 0x4793A8) (at_ [] .idle 0 0)) =
    some (some (.fval (.finite false (12917 / 32))), 0) := by decide +kernel
/-- The source's value for 0x800000. -/
theorem test_cfdec_minus_zero : retOff (exec (.cfdec 0x800000) (at_ [] .idle 0 0)) =
    some (some (.fval (.finite true 0)), 0) := by decide +kernel
/-- The source's value for 0xFF0000. -/
theorem test_cfdec_inf : retOff (exec (.cfdecInf true) (at_ [] .idle 0 0)) = some (some (.fval .negInf), 0) := by
  decide
/-- Vector CF31. -/
theorem test_cfdec_nan : retOff (exec (.cfdecNan true 1) (at_ [] .idle 0 0)) = some (some (.fval .nan), 0) := by decide
/-- Vector CF23. -/
theorem test_cfdec_norm : retOff (exec (.cfdecNorm true 64 0x8000) (at_ [] .idle 0 0)) =
    some (some (.fval (.finite true 3)), 0) := by decide +kernel
/-- Vector CF3. -/
theorem test_cfdec_den : retOff (exec (.cfdecDen false 0x8000) (at_ [] .idle 0 0)) =
    some (some (.fval (.finite false (1 / 2 ^ 63))), 0) := by decide +kernel
/-- Vector A9. -/
theorem test_volt : retOff (exec .volt (at_ [0xF3, 0x34] .idle 0 0)) =
    some (some (.fval (.finite true (7998046875 / 10000000000))), 2) := by decide +kernel
/-- Vector A12. -/
theorem test_temp : retOff (exec .temp (at_ [0xFF, 0x80] .idle 0 0)) =
    some (some (.fval (.finite true (1 / 2))), 2) := by decide +kernel
/-- Vector H8: the binary64 image of the rounded quotient. -/
theorem test_rh : image64 (humidity 0x8000) = 0x4049001900190019 := by decide +kernel
/-- Vector H10. -/
theorem test_rh_full : retOff (exec .rh (at_ [0xFF, 0xFF] .idle 0 0)) =
    some (some (.fval (.finite false 100)), 2) := by decide +kernel
/-- Rule R170's word. -/
theorem test_lux : retOff (exec .lux (at_ [0x4C, 0xE2, 0x40] .idle 0 0)) =
    some (some (.fval (.finite false 15432)), 3) := by decide +kernel
/-- Rule R145's example. -/
theorem test_boot : retOff (exec .boot (at_ [0x2A] .idle 0 0)) = some (some (.u8 42), 1) := by decide
/-- Vector F11: a wrong channel wins over an empty frame. -/
theorem test_chgate_foreign :
    stOff (exec .chgate { at_ [] .awaitingTag 0 0 with ch := 8 }) = some (.notMine, 0) := by decide
theorem test_chgate_own : stOff (exec .chgate (at_ [] .awaitingTag 0 0)) = some (.awaitingTag, 0) := by decide
/-- Vector F9: a wrong tag on one byte. -/
theorem test_tagchk_foreign : stOff (exec .tagchk (at_ [0x2B] .awaitingTag 0 0)) = some (.notMine, 0) := by decide
/-- Vector F12: the empty frame has no tag to show. -/
theorem test_tagchk_empty :
    (nextOf (exec .tagchk (at_ [] .awaitingTag 0 0))).map (fun s => (s.st, s.diagTagValid, s.diagTag)) =
      some (.failed, some false, none) := by decide
/-- Program P3, step 2. -/
theorem test_bmload :
    stOff (exec .bmload (at_ [0x2A, 0x12, 0x14, 0, 0x4C, 0xE2, 0x40] .awaitingBitmap 1 0)) =
      some (.field 1, 2) := by decide
/-- Vector F3: the reserved bit alone. -/
theorem test_bmload_reserved : (nextOf (exec .bmload (at_ [0x2A, 0x80] .awaitingBitmap 1 0))).map
    (fun s => (s.st, s.status, s.offFinal)) = some (.done, some .record, some 2) := by decide
/-- Rule R166's example. -/
theorem test_field0 : (nextOf (exec .field0 (at_ [0x2A, 1, 0x10, 0] (.field 0) 2 1))).map
    (fun s => (s.st, s.record.batteryVoltage, s.offFinal)) = some (.done, some (.finite false 1), some 4) := by
  decide +kernel
/-- Rule R167's example. -/
theorem test_field1 : (nextOf (exec .field1 (at_ [0x2A, 2, 0x14, 0] (.field 1) 2 2))).map
    (fun s => (s.record.busVoltage, s.record.batteryVoltage)) = some (some (.finite false (5 / 4)), none) := by
  decide +kernel
/-- Vector F4: bit 7 set and trailing bytes. -/
theorem test_field2 : (nextOf (exec .field2 (at_ [0x2A, 0x84, 0xFF, 0xDE, 0xAD] (.field 2) 2 0x84))).map
    (fun s => (s.st, s.record.bootCount, s.offFinal)) = some (.done, some 255, some 3) := by decide
/-- Rule R169's example: the temperature and the image of the humidity. -/
theorem test_field3 : (nextOf (exec .field3 (at_ [0x2A, 8, 0x15, 0x80, 0x7F, 0xFF] (.field 3) 2 8))).map
    (fun s => (s.record.temperatureC, s.record.humidityPct.map image64, s.off)) =
      some (some (.finite false (43 / 2)), some 0x4048FFE6FFE6FFE7, 6) := by decide +kernel
/-- Vector F17: the humidity is truncated; the temperature does not survive. -/
theorem test_field3_short : (nextOf (exec .field3 (at_ [0x2A, 8, 0x15, 0x80, 0x7F] (.field 3) 2 8))).map
    (fun s => (s.st, s.offFinal, s.record)) = some (.failed, some 4, Record.empty) := by decide
/-- Vector F19: NaN is no error. -/
theorem test_field4 : (nextOf (exec .field4 (at_ [0x2A, 0x10, 0xFF, 0x12, 0x34] (.field 4) 2 0x10))).map
    (fun s => (s.st, s.record.lux)) = some (.done, some .nan) := by decide
/-- Rule R171's example. -/
theorem test_field5 : (nextOf (exec .field5 (at_ [0x2A, 0x20, 0x80, 0] (.field 5) 2 0x20))).map
    (fun s => (s.st, s.record.probeOneTemperatureC)) = some (.done, some (.finite true 128)) := by decide +kernel
/-- Rule R172's example. -/
theorem test_field6 : (nextOf (exec .field6 (at_ [0x2A, 0x40, 0x7F, 0xFF] (.field 6) 2 0x40))).map
    (fun s => (s.st, s.record.probeTwoTemperatureC)) = some (.done, some (.finite false (32767 / 256))) := by
  decide +kernel

/-! ### The step, START and the placing of table words -/

/-- The source's end-to-end example (section 1.3): the last step fails at offset 6. -/
theorem test_step_source_example :
    (nextOf (step (at_ [0x2A, 9, 0x10, 0, 7, 0xFF] (.field 3) 4 9))).map
      (fun s => (s.st, s.offFinal, s.diagCh, s.diagTag)) =
        some (.failed, some 6, some 7, some 0x2A) := by decide
theorem test_step_takes_a_call :
    (nextOf (step { at_ [] .done 5 0x7F with call := some ⟨[0x2A, 0], 3⟩ })).map
      (fun s => (s.st, s.off, s.len, s.ch, s.bm)) = some (.awaitingTag, 0, 2, 3, 0x7F) := by decide
theorem test_reset_idles : (nextOf (step State.reset)).map (fun s => s.st) = some .idle := by decide

/-- Every table word with fixed bits, placed after reset, is run by the very next step. -/
theorem test_placed_words_run :
    ([(0, 0), (8, 0x2A), (8, 0), (8, 1), (8, 2), (8, 4), (8, 8), (8, 16), (8, 32), (8, 64), (16, 0), (24, 0x7F0000),
      (24, 0x7F0001), (24, 0x3F0000), (24, 0)] : List (Nat × Nat)).all
      (fun p => (nextOf (step (State.reset.withFetchWord p.1 p.2))).isSome) = true := by decide
theorem test_placed_tag_is_accepted :
    stOff (step (State.reset.withFetchWord 8 0x2A)) = some (.awaitingBitmap, 1) := by decide
theorem test_placed_infinity_is_decoded :
    (nextOf (step (State.reset.withFetchWord 24 0x7F0000))).map (fun s => s.record.lux) = some (some .posInf) := by
  decide

/-! ### Witnesses: concrete states and operands that meet the hypotheses of the statements, each clause at a boundary -/

/-- The `n` bytes left from the cursor are the last ones of the buffer, and they are the given ones. -/
def lastBytes (s : State) (bs : List Byte) : Bool :=
  decide (s.off + bs.length = s.len) &&
    (List.range bs.length).all fun j => decide (Memory.byteAt s.mem (s.off + j) = bs[j]?)

theorem witness_encode : (Instr.cfdecNan true 1).wellFormed = true ∧ (Instr.cfdecNorm false 1 0).wellFormed = true ∧
    (Instr.cfdecNorm true 126 0xFFFF).wellFormed = true ∧ (Instr.cfdecDen true 0).wellFormed = true := by decide

/-- Both disjuncts of the next state, at the largest `k` too. -/
theorem witness_next_state :
    (nextState 1 0x41 = .field 6 ∧ nextState 6 0x40 = .field 6) ∧ nextState 6 0x80 = .done ∧ 7 ≤ 7 := by decide

/-- The last byte, and the last two, of a frame. -/
theorem witness_last_bytes_read : Memory.byteAt (Memory.ofBytes [1, 2, 0x83]) 2 = some 0x83 ∧
    Memory.byteAt (Memory.ofBytes [1, 2, 0x83]) 1 = some 2 ∧
    Memory.byteAt (Memory.ofBytes [1, 2, 0x83]) (1 + 1) = some 0x83 := by decide
theorem witness_frame_read : Memory.byteAt (Memory.ofBytes [1, 2, 0x83]) 0 = some 1 ∧
    Memory.byteAt (Memory.ofBytes [1, 2, 0x83]) (0 + 1) = some 2 ∧
    Memory.byteAt (Memory.ofBytes [1, 2, 0x83]) (0 + 2) = some 0x83 := by decide

/-- A state with a call presented, from which START takes it. -/
def called (c : Call) (st : PState) : State := { at_ [1, 2] st 0 0x55 with call := some c }

theorem witness_start : ∃ t : State, (called ⟨[0x2A, 0], 3⟩ .done).call = some ⟨[0x2A, 0], 3⟩ ∧
    step (called ⟨[0x2A, 0], 3⟩ .done) = .next t := ⟨_, rfl, rfl⟩
theorem witness_start_refused : (called ⟨[], 3⟩ (.field 6)).call = some ⟨[], 3⟩ ∧
    (called ⟨[], 3⟩ (.field 6)).st.running = true ∧ (called ⟨[], 3⟩ .idle).st.running = false := by decide

/-- One byte, at the end of the buffer (RDU8, BOOT, BMLOAD, FIELD2). -/
theorem witness_one_byte : (at_ [9, 0x80] .awaitingBitmap 1 0).off + 1 ≤ (at_ [9, 0x80] .awaitingBitmap 1 0).len ∧
    lastBytes (at_ [9, 0x80] .awaitingBitmap 1 0) [0x80] = true := by decide
/-- Two bytes, with the sign bit clear and set (RDU16, RDI16, VOLT, TEMP, RH, FIELD0, FIELD1, FIELD5, FIELD6). -/
theorem witness_two_bytes : lastBytes (at_ [9, 0x7F, 0xFF] (.field 0) 1 1) [0x7F, 0xFF] = true ∧
    lastBytes (at_ [9, 0x80, 0] (.field 0) 1 1) [0x80, 0] = true := by decide
/-- Three bytes (RDU24, LUX, FIELD4). -/
theorem witness_three_bytes : lastBytes (at_ [0xFF, 0, 1] (.field 4) 0 16) [0xFF, 0, 1] = true := by decide
/-- Four bytes (FIELD3), without and with a Derive function. -/
theorem witness_four_bytes : lastBytes (at_ [1, 2, 3, 4] (.field 3) 0 8) [1, 2, 3, 4] = true ∧
    (at_ [1, 2, 3, 4] (.field 3) 0 8).cfg.deriveAttached = false ∧
    lastBytes { at_ [1, 2, 3, 4] (.field 3) 0 8 with cfg := ⟨7, true⟩ } [1, 2, 3, 4] = true := by decide
/-- One byte too few for each width, and nothing left at all. -/
theorem witness_short : (at_ [1, 2] .idle 2 0).len < (at_ [1, 2] .idle 2 0).off + 1 ∧
    (at_ [1, 2] .idle 1 0).len < (at_ [1, 2] .idle 1 0).off + 2 ∧
    (at_ [1, 2] .idle 0 0).len < (at_ [1, 2] .idle 0 0).off + 3 := by decide
/-- The humidity missing, by two bytes and by one. -/
theorem witness_humidity_short :
    ((at_ [1, 2] (.field 3) 0 8).off + 2 ≤ (at_ [1, 2] (.field 3) 0 8).len ∧
      (at_ [1, 2] (.field 3) 0 8).len < (at_ [1, 2] (.field 3) 0 8).off + 4) ∧
    (at_ [1, 2, 3] (.field 3) 0 8).len < (at_ [1, 2, 3] (.field 3) 0 8).off + 4 ∧
    Memory.byteAt (at_ [1, 2] (.field 3) 0 8).mem 0 = some 1 ∧
    Memory.byteAt (at_ [1, 2] (.field 3) 0 8).mem (0 + 1) = some 2 := by decide

theorem witness_humidity_order : (0xFF : Byte).toNat * 256 + (0xFE : Byte).toNat ≤ (0xFF : Byte).toNat * 256 + (0xFF : Byte).toNat ∧
    (∃ p, humidityU16 0xFF 0xFE = .finite false p) ∧ humidityU16 0xFF 0xFF = .finite false 100 :=
  ⟨by decide, ⟨_, rfl⟩, by decide +kernel⟩
/-- A tie of the rounding, and zero. -/
theorem witness_round_tie : (0 : Rat) ≤ 1 + 1 / 2 ^ 53 ∧
    |roundOut (1 + 1 / 2 ^ 53) - (1 + 1 / 2 ^ 53)| = ulp (1 + 1 / 2 ^ 53) / 2 ∧ (0 : Rat) ≤ 0 := by decide +kernel
/-- The smallest normal value, and the smallest value of all. -/
theorem witness_round_binades : (2 : Rat) ^ (-1022 : Int) ≤ 2 ^ (-1022 : Int) ∧ (0 : Rat) < 2 ^ (-1074 : Int) ∧
    (2 : Rat) ^ (-1074 : Int) < 2 ^ (-1022 : Int) := by decide +kernel
/-- The two largest finite words. -/
theorem witness_cf_order : 0x7EFFFE < 0x7EFFFF ∧ 0x7EFFFF ≤ 0x7EFFFF ∧
    cfDecode (BitVec.ofNat 24 0x7EFFFE) = .finite false (131070 * 2 ^ 47) ∧
    cfDecode (BitVec.ofNat 24 0x7EFFFF) = .finite false (131071 * 2 ^ 47) := by decide +kernel
/-- Minus zero. -/
theorem witness_cf_distinct : cfExp 0x800000 ≠ 0x7F ∧ cfDecode 0x800000 = .finite true 0 := by decide +kernel

theorem witness_channel : (at_ [] .awaitingTag 0 0).ch = (at_ [] .awaitingTag 0 0).cfg.channelId ∧
    ({ at_ [] .awaitingTag 0 0 with ch := 8 } : State).ch ≠ ({ at_ [] .awaitingTag 0 0 with ch := 8 } : State).cfg.channelId := by
  decide
theorem witness_tag : (0x2B : Byte) ≠ Config.tag ∧ (0x2A : Byte) = Config.tag ∧
    lastBytes (at_ [0x2B] .awaitingTag 0 0) [0x2B] = true ∧ lastBytes (at_ [0x2A] .awaitingTag 0 0) [0x2A] = true := by
  decide
theorem witness_empty_frame : ∃ t : State, (at_ [] .awaitingTag 0 0).off = 0 ∧ (at_ [] .awaitingTag 0 0).len = 0 ∧
    exec .tagchk (at_ [] .awaitingTag 0 0) = .next t := ⟨_, rfl, rfl, rfl⟩
theorem witness_bitmap_selects_nothing : ∀ j : Fin 7, (0x80 : Byte).getLsbD j.val = false := by decide

/-! States of the invariant. -/

theorem inv_at_tag (bytes : List Byte) (h : Memory.complete (Memory.ofBytes bytes) bytes.length = true) :
    Inv (at_ bytes .awaitingTag 0 0) :=
  ⟨h, ⟨Nat.zero_le _, Nat.zero_le _, rfl⟩, rfl, ⟨rfl, rfl, rfl, rfl, rfl, rfl⟩, trivial⟩

theorem inv_at_field0 : Inv (at_ [0x2A, 3, 0x10] (.field 0) 2 3) :=
  ⟨by decide, ⟨by decide, by decide, by decide, by decide⟩,
    ⟨by intro f; cases f <;> decide, by decide, by decide⟩,
    ⟨rfl, rfl, rfl, rfl, rfl, rfl⟩, ⟨rfl, by decide⟩, by decide⟩

theorem inv_at_field1 : Inv { at_ [0x2A, 3, 0x10, 0, 9] (.field 1) 4 3 with
    record := { Record.empty with batteryVoltage := some (.finite false 1) } } :=
  ⟨by decide, ⟨by decide, by decide, by decide, by decide⟩,
    ⟨by intro f; cases f <;> decide, by decide, by decide⟩,
    ⟨rfl, rfl, rfl, rfl, rfl, rfl⟩, ⟨rfl, by decide⟩, by decide⟩

theorem inv_at_field1_first : Inv (at_ [0x2A, 2, 9] (.field 1) 2 2) :=
  ⟨by decide, ⟨by decide, by decide, by decide, by decide⟩,
    ⟨by intro f; cases f <;> decide, by decide, by decide⟩,
    ⟨rfl, rfl, rfl, rfl, rfl, rfl⟩, ⟨rfl, by decide⟩, by decide⟩

theorem witness_field_offsets : (Inv (at_ [0x2A, 3, 0x10] (.field 0) 2 3) ∧ (at_ [0x2A, 3, 0x10] (.field 0) 2 3).st = .field 0) ∧
    (at_ [0x2A, 2, 9] (.field 1) 2 2).st = .field 1 := ⟨⟨inv_at_field0, rfl⟩, rfl⟩
/-- A decode just started. -/
theorem witness_running : Inv (at_ [0x2A, 0x7F] .awaitingTag 0 0) ∧ (at_ [0x2A, 0x7F] .awaitingTag 0 0).call = none ∧
    (at_ [0x2A, 0x7F] .awaitingTag 0 0).st = .awaitingTag ∧ (at_ [0x2A, 0x7F] .awaitingTag 0 0).st.running = true :=
  ⟨inv_at_tag _ (by decide), rfl, rfl, rfl⟩
theorem witness_inv_step : ∃ t : State, Inv (at_ [0x2A, 0x7F] .awaitingTag 0 0) ∧
    step (at_ [0x2A, 0x7F] .awaitingTag 0 0) = .next t ∧ t.st = .awaitingBitmap :=
  ⟨_, inv_at_tag _ (by decide), rfl, by decide⟩
theorem witness_step_fails : ∃ t : State, Inv (at_ [0x2A, 3, 0x10] (.field 0) 2 3) ∧
    (at_ [0x2A, 3, 0x10] (.field 0) 2 3).st.running = true ∧
    step (at_ [0x2A, 3, 0x10] (.field 0) 2 3) = .next t ∧ t.st = .failed :=
  ⟨_, inv_at_field0, rfl, rfl, by decide⟩
theorem witness_step_not_mine : ∃ t : State, Inv (at_ [0x2B] .awaitingTag 0 0) ∧
    step (at_ [0x2B] .awaitingTag 0 0) = .next t ∧ t.st = .notMine := ⟨_, inv_at_tag _ (by decide), rfl, by decide⟩
theorem witness_exec_fails : ∃ t : State, exec .field0 (at_ [0x2A, 3, 0x10] (.field 0) 2 3) = .next t ∧
    (at_ [0x2A, 3, 0x10] (.field 0) 2 3).st ≠ .failed ∧ t.st = .failed := ⟨_, rfl, by decide, by decide⟩
theorem witness_humidity_fails : ∃ t : State, exec .field3 (at_ [1, 2, 3] (.field 3) 0 8) = .next t ∧
    (at_ [1, 2, 3] (.field 3) 0 8).st ≠ .failed ∧ t.st = .failed ∧ t.off = 2 := ⟨_, rfl, by decide, by decide, by decide⟩

/-! Executions. -/

theorem witness_adapters : (∃ (t : State) (v : FVal), lastBytes (at_ [1, 2] (.field 0) 0 1) [1, 2] = true ∧
      exec .volt (at_ [1, 2] (.field 0) 0 1) = .next t ∧ t.ret = some (.fval v)) ∧
    (∃ (t : State) (v : Byte), exec .boot (at_ [7] (.field 2) 0 4) = .next t ∧ t.ret = some (.u8 v)) ∧
    (∃ (t u : State) (v h : FVal), exec .temp (at_ [1, 2, 3, 4] (.field 3) 0 8) = .next t ∧ t.ret = some (.fval v) ∧
      exec .rh t = .next u ∧ u.ret = some (.fval h)) ∧
    (∃ (t : State) (v : FVal), exec .lux (at_ [1, 2, 3] (.field 4) 0 16) = .next t ∧ t.ret = some (.fval v)) ∧
    (∃ (t : State) (v : FVal), exec .temp (at_ [1, 2] (.field 5) 0 32) = .next t ∧ t.ret = some (.fval v)) ∧
    ∃ (t : State) (w : Word24), exec .rdu24 (at_ [1, 2, 3] (.field 4) 0 16) = .next t ∧ t.ret = some (.u24 w) :=
  ⟨⟨_, _, by decide, rfl, rfl⟩, ⟨_, _, rfl, rfl⟩, ⟨_, _, _, _, rfl, rfl, rfl, rfl⟩, ⟨_, _, rfl, rfl⟩, ⟨_, _, rfl, rfl⟩,
    ⟨_, _, rfl, rfl⟩⟩
theorem witness_readers :
    (∃ (t : State) (u : Half), exec .rdu16 (at_ [1, 2] (.field 0) 0 1) = .next t ∧ t.ret = some (.u16 u)) ∧
    (∃ (t : State) (i : Int), exec .rdi16 (at_ [0x80, 2] (.field 0) 0 1) = .next t ∧ t.ret = some (.i16 i)) ∧
    ∃ (t : State) (b : Byte), exec .rdu8 (at_ [9, 0x80] .awaitingBitmap 1 0) = .next t ∧ t.ret = some (.u8 b) :=
  ⟨⟨_, _, rfl, rfl⟩, ⟨_, _, rfl, rfl⟩, ⟨_, _, rfl, rfl⟩⟩
/-- The humidity missing behind a temperature that was read. -/
theorem witness_temp_then_short : ∃ t : State, exec .temp (at_ [1, 2, 3] (.field 3) 0 8) = .next t ∧
    (at_ [1, 2, 3] (.field 3) 0 8).off + 2 ≤ (at_ [1, 2, 3] (.field 3) 0 8).len ∧
    (at_ [1, 2, 3] (.field 3) 0 8).len < (at_ [1, 2, 3] (.field 3) 0 8).off + 4 := ⟨_, rfl, by decide, by decide⟩
/-- A frame step other than BMLOAD, which does not fail and does not end the decode. -/
theorem witness_exec_goes_on : ∃ t : State, exec .field2 (at_ [7, 1, 2, 3] (.field 2) 0 0x14) = .next t ∧
    Instr.field2 ≠ .bmload ∧ isFrameStep .field2 = true ∧ Instr.field2 ≠ .tagchk ∧ t.st ≠ .failed ∧ isTerminal t.st = false ∧
    t.record.get .bootCount ≠ (at_ [7, 1, 2, 3] (.field 2) 0 0x14).record.get .bootCount :=
  ⟨_, rfl, by decide, by decide, by decide, by decide, by decide, by decide⟩
theorem witness_exec_micro : ∃ t : State, exec .rdu8 (at_ [7] (.field 2) 0 4) = .next t ∧ isFrameStep .rdu8 = false ∧
    t.st ≠ .failed := ⟨_, rfl, by decide, by decide⟩
theorem witness_exec_tagchk : ∃ t : State, exec .tagchk (at_ [0x2A] .awaitingTag 0 0) = .next t := ⟨_, rfl⟩
/-- The abort empties a record that held a value. -/
theorem witness_abort_changes_record : ∃ t : State,
    exec .field1 { at_ [0x2A, 3, 0x10, 0, 9] (.field 1) 4 3 with
      record := { Record.empty with batteryVoltage := some (.finite false 1) } } = .next t ∧
    t.record.get .batteryVoltage ≠ some (.fval (.finite false 1)) ∧ t.st = .failed := ⟨_, rfl, by decide, by decide⟩
theorem witness_last_field : ∃ t : State, lastBytes (at_ [1, 2] (.field 6) 0 0xC0) [1, 2] = true ∧
    exec .field6 (at_ [1, 2] (.field 6) 0 0xC0) = .next t := ⟨_, by decide, rfl⟩

theorem witness_ranges : ∃ t : State,
    RangeOk { at_ [0x2A, 2, 9, 9] (.field 1) 2 2 with
      record := { Record.empty with
        batteryVoltage := some (fixedI16 4096 0x80 0), humidityPct := some (humidityU16 0xFF 0xFF) } } ∧
    step { at_ [0x2A, 2, 9, 9] (.field 1) 2 2 with
      record := { Record.empty with
        batteryVoltage := some (fixedI16 4096 0x80 0), humidityPct := some (humidityU16 0xFF 0xFF) } } = .next t := by
  refine ⟨_, ⟨?_, ?_, ?_, ?_, ?_, ?_, ?_⟩, rfl⟩
  · intro v h
    exact ⟨0x80, 0, (Option.some.inj h).symm⟩
  rotate_left 2
  · intro v h
    exact ⟨0xFF, 0xFF, (Option.some.inj h).symm⟩
  all_goals intro v h; exact absurd h (by simp [Record.empty])

/-! The step, runs and outcomes. -/

theorem witness_idle : (at_ [1] .done 1 0).call = none ∧ (at_ [1] .done 1 0).st.running = false ∧
    (at_ [1] .notMine 0 0).st.running = false ∧ (at_ [1] .failed 1 0).st.running = false ∧
    State.reset.call = none ∧ State.reset.st.running = false := by decide
theorem witness_selected : (at_ [0x2A, 0] .awaitingBitmap 1 0).st = .awaitingBitmap ∧
    decode .bitmap [0] = .ok (.bmload, []) ∧ (at_ [0x2A, 0x41, 9, 9] (.field 6) 2 0x41).st = .field 6 ∧
    (0x41 : Byte).getLsbD (6 : Fin 7).val = true ∧ decode (.select 6) [0x41] = .ok (.field6, []) :=
  ⟨rfl, rfl, rfl, by decide, rfl⟩
theorem witness_call : (called ⟨[], 8⟩ .idle).call = some ⟨[], 8⟩ ∧ (called ⟨[], 8⟩ .idle).st.running = false ∧
    (⟨[], 8⟩ : Call).ch ≠ (called ⟨[], 8⟩ .idle).cfg.channelId := by decide
/-- A wrong tag on the right channel. -/
theorem witness_foreign_tag : (⟨[0x2B], 7⟩ : Call).ch = (called ⟨[0x2B], 7⟩ .idle).cfg.channelId ∧
    ∃ (b : Byte) (rest : List Byte), (⟨[0x2B], 7⟩ : Call).bytes = b :: rest ∧ b ≠ Config.tag :=
  ⟨rfl, _, _, rfl, by decide⟩
/-- Two instances with different pasts, run on one call. -/
theorem witness_two_pasts : ∃ t₁ t₂ : State, called ⟨[0x2A, 0], 7⟩ .idle ≠ called ⟨[0x2A, 0], 7⟩ .failed ∧
    (called ⟨[0x2A, 0], 7⟩ .idle).cfg = (called ⟨[0x2A, 0], 7⟩ .failed).cfg ∧
    Host.Core.run Sys2Proof.core 10 (called ⟨[0x2A, 0], 7⟩ .idle) = .next t₁ ∧
    Host.Core.run Sys2Proof.core 10 (called ⟨[0x2A, 0], 7⟩ .failed) = .next t₂ := ⟨_, _, by decide, rfl, rfl, rfl⟩
/-- A run that fails, and one that ends in a record. -/
theorem witness_truncated : ∃ t u : State, Host.Core.run Sys2Proof.core 10 (called ⟨[0x2A], 7⟩ .idle) = .next t ∧
    t.st = .failed ∧ Host.Core.run Sys2Proof.core 10 (called ⟨[0x2A, 4, 9], 7⟩ .idle) = .next u ∧ u.st = .done :=
  ⟨_, _, rfl, by decide, rfl, by decide⟩
/-- The longest frame, with nothing to spare. -/
theorem witness_trailing : need 0x7F ≤ (List.replicate 16 (0 : Byte)).length + 2 ∧ need 0x80 ≤ ([] : List Byte).length + 2 ∧
    (at_ [] .idle 0 0).st.running = false := by decide
theorem witness_record_read : (at_ [] .idle 0 0).record.valid .lux = false ∧
    ({ at_ [] .idle 0 0 with record := { Record.empty with bootCount := some 0 } } : State).record.valid .bootCount = true := by
  decide
theorem witness_signed : signed16 0x8000 = signed16 0x8000 ∧ (-32768 : Int) ≤ -32768 ∧ (-32768 : Int) ≤ 32767 ∧
    (-32768 : Int) ≤ 32767 ∧ (32767 : Int) ≤ 32767 := by decide
/-- The rounded temperature just outside and just inside its range, the humidity on both sides of its own. -/
theorem witness_heat_domain : (roundInt 75 < 76 ∧ 126 < roundInt 127 ∧ (-1 : Rat) < 0 ∧ (100 : Rat) < 101) ∧
    ((75 : Rat) < 151 / 2 ∧ (253 / 2 : Rat) < 127) ∧
    (76 ≤ roundInt 76 ∧ roundInt 76 ≤ 126 ∧ 76 ≤ roundInt 126 ∧ roundInt 126 ≤ 126 ∧ (0 : Rat) ≤ 100 ∧ (100 : Rat) ≤ 100) := by
  have h75 := roundInt_intCast 75
  have h76 := roundInt_intCast 76
  have h126 := roundInt_intCast 126
  have h127 := roundInt_intCast 127
  push_cast at h75 h76 h126 h127
  rw [h75, h76, h126, h127]
  norm_num
/-- The ends of the clamp of the humidity. -/
theorem witness_clamp : (1 : Rat) ≤ 1 ∧ (1 : Rat) ≤ 100 ∧ (100 : Rat) ≤ 100 := by norm_num
/-- Just outside the range of Celsius temperatures that can have a heat index. -/
theorem witness_no_heat_index : signedValue false 24 < 145 / 6 ∧ 105 / 2 < signedValue false 53 := by
  norm_num [signedValue]

/-- An arithmetic without error, but for the logarithm and the square root, which it does not have. -/
def exactArith : DeriveArith :=
  { ln := fun _ => 0, sqrt := fun x => x, fl := fun _ e _ _ => e, dewpointZeroSign := fun _ _ => false,
    heatIndexZeroSign := fun _ _ => false }

/-- A heat index that is present (25 °C, 77 °F), and one that is absent (0 °C). -/
theorem witness_heat_index : (∃ f, heatIndexF exactArith (signedValue false 25 * 9 / 5 + 32) (signedValue false 50) = some f) ∧
    heatIndexF exactArith (signedValue false 0 * 9 / 5 + 32) (signedValue false 50) = none := by
  have h77 := roundInt_intCast 77
  have h32 := roundInt_intCast 32
  push_cast at h77 h32
  constructor
  · refine ⟨307 / 4, ?_⟩
    norm_num [heatIndexF, heatDomain, signedValue, heatSum, heatEasy, exactArith, h77]
  · norm_num [heatIndexF, heatDomain, signedValue, h32]

/-- An arithmetic that follows the formulas exists. -/
theorem witness_follows_formulas : ∃ A : DeriveArith, A.FollowsFormulas := by
  have near (x : ℝ) : ∃ q : ℚ, |(q : ℝ) - x| ≤ 1 / 1000 := by
    obtain ⟨q, h1, h2⟩ := exists_rat_btwn (show x < x + 1 / 1000 by norm_num)
    exact ⟨q, abs_le.2 ⟨by linarith, by linarith⟩⟩
  choose r hr using near
  refine ⟨{ ln := fun x => r (Real.log x), sqrt := fun x => r (Real.sqrt x), fl := fun _ e _ _ => e,
            dewpointZeroSign := fun _ _ => false, heatIndexZeroSign := fun _ _ => false },
    fun x _ _ => hr _, fun x _ _ => hr _, fun _ e _ _ _ _ _ _ => ?_⟩
  have h : (0 : Rat) ≤ max 1 |e| / 1000 := by positivity
  simpa using h

end Sys2Proof.Tests
end

section
/-! PROOFS. `RoundOut` (R5, D5, D6): the rounding to an integer, the place of a value between the ends of its binade
counted in units in the last place, and the nearest value of the format. -/

namespace Sys2Proof.Machine

/-- Rounding to the nearest integer does not pass an integer below. -/
theorem le_roundHalfEven {k : Int} {x : Rat} (h : (k : Rat) ≤ x) : k ≤ roundHalfEven x := by
  have hx := (abs_le.1 (abs_roundHalfEven_sub_le x)).1
  have : (k : Rat) < (roundHalfEven x + 1 : Int) := by push_cast; linarith
  exact Int.lt_add_one_iff.1 (by exact_mod_cast this)

/-- Rounding to the nearest integer does not pass an integer above. -/
theorem roundHalfEven_le {k : Int} {x : Rat} (h : x ≤ k) : roundHalfEven x ≤ k := by
  have hx := (abs_le.1 (abs_roundHalfEven_sub_le x)).2
  have : (roundHalfEven x : Rat) < (k + 1 : Int) := by push_cast; linarith
  exact Int.lt_add_one_iff.1 (by exact_mod_cast this)

@[simp] theorem roundHalfEven_intCast (k : Int) : roundHalfEven k = k :=
  le_antisymm (roundHalfEven_le le_rfl) (le_roundHalfEven le_rfl)

/-- A value halfway between two integers goes to the even one (D6). -/
theorem roundHalfEven_even_of_tie {x : Rat} (h : |(roundHalfEven x : Rat) - x| = 1 / 2) :
    roundHalfEven x % 2 = 0 := by
  have hlo : (x.floor : Rat) ≤ x := Int.floor_le x
  have hhi : x < x.floor + 1 := Int.lt_floor_add_one x
  unfold roundHalfEven at h ⊢
  simp only at h ⊢
  split_ifs at h ⊢ with hbelow habove heven
  · rw [abs_of_nonpos (by linarith)] at h
    linarith
  · push_cast at h
    rw [abs_of_nonneg (by linarith)] at h
    linarith
  · exact heven
  · omega

theorem ulp_eq_zpow (q : Rat) : ulp q = (2 : Rat) ^ (binadeExp q - 52) := by
  simp [ulp, Config.outPrecision]

/-- `2^53` units in the last place lie at the upper end of the binade. -/
theorem two_pow_mul_ulp (q : Rat) : 2 ^ 53 * ulp q = (2 : Rat) ^ (binadeExp q + 1) := by
  rw [ulp_eq_zpow, ← zpow_natCast, ← zpow_add₀ two_ne_zero]
  congr 1
  push_cast
  ring

/-- No binade below that of the smallest normal value (D5). -/
theorem outMinExp_le_binadeExp (q : Rat) : -1022 ≤ binadeExp q := le_max_right ..

/-- The binade of a normal value is that of its leading bit. -/
theorem binadeExp_of_normal {q : Rat} (h : (2 : Rat) ^ (-1022 : Int) ≤ q) : binadeExp q = Int.log 2 q :=
  max_eq_left <| (Int.zpow_le_iff_le_log one_lt_two (lt_of_lt_of_le (by positivity) h)).1 (mod_cast h)

/-- A value below the smallest normal one belongs to the binade of that value. -/
theorem binadeExp_of_subnormal {q : Rat} (h0 : 0 < q) (h : q < (2 : Rat) ^ (-1022 : Int)) :
    binadeExp q = -1022 :=
  max_eq_right <| ((Int.lt_zpow_iff_log_lt one_lt_two h0).1 (mod_cast h)).le

/-- A value has at most 53 bits above its unit in the last place. -/
theorem div_ulp_le (q : Rat) : q / ulp q ≤ 2 ^ 53 := by
  rw [div_le_iff₀ (ulp_pos q), two_pow_mul_ulp]
  calc q ≤ (2 : Rat) ^ (Int.log 2 q + 1) := mod_cast (Int.lt_zpow_succ_log_self one_lt_two q).le
    _ ≤ (2 : Rat) ^ (binadeExp q + 1) :=
      zpow_le_zpow_right₀ one_le_two (Int.add_le_add_right (le_max_left ..) 1)

/-- A normal value has all 53 bits above its unit in the last place. -/
theorem le_div_ulp_of_normal {q : Rat} (h : (2 : Rat) ^ (-1022 : Int) ≤ q) : 2 ^ 52 ≤ q / ulp q := by
  have hlead : (2 : Rat) ^ binadeExp q ≤ q := by
    rw [binadeExp_of_normal h]
    exact_mod_cast Int.zpow_log_le_self one_lt_two (lt_of_lt_of_le (by positivity) h)
  have htop := two_pow_mul_ulp q
  rw [zpow_add_one₀ two_ne_zero] at htop
  rw [le_div_iff₀ (ulp_pos q)]
  linarith

/-- `RoundOut` rounds the number of units in the last place; zero is no case of its own. -/
theorem roundOut_eq (q : Rat) : roundOut q = roundHalfEven (q / ulp q) * ulp q := by
  unfold roundOut
  split_ifs with h
  · have hzero : roundHalfEven 0 = 0 := mod_cast roundHalfEven_intCast 0
    simp [h, hzero]
  · rfl

/-- The error of `RoundOut`, in units in the last place, is that of the rounding to an integer. -/
theorem abs_roundOut_sub (q : Rat) :
    |roundOut q - q| = |(roundHalfEven (q / ulp q) : Rat) - q / ulp q| * ulp q := by
  have hu := ulp_pos q
  rw [roundOut_eq, ← abs_of_pos hu, ← abs_mul, abs_of_pos hu, sub_mul, div_mul_cancel₀ q hu.ne']

/-- `RoundOut` is off by at most half a unit in the last place (D6). -/
theorem abs_roundOut_sub_le (q : Rat) : |roundOut q - q| ≤ ulp q / 2 := by
  have hle := mul_le_mul_of_nonneg_right (abs_roundHalfEven_sub_le (q / ulp q)) (ulp_pos q).le
  rw [abs_roundOut_sub]
  linarith

/-- At a tie the rounded number of units in the last place is even (D6). -/
theorem roundHalfEven_even_of_roundOut_tie {q : Rat} (h : |roundOut q - q| = ulp q / 2) :
    roundHalfEven (q / ulp q) % 2 = 0 := by
  rw [abs_roundOut_sub] at h
  exact roundHalfEven_even_of_tie (mul_right_cancel₀ (ulp_pos q).ne' (by linarith))

/-- Settles O14: `n` is the rounded number of units in the last place, and `e` the exponent of one such unit. -/
theorem roundOutIsNearestTiesToEven : Obligations.RoundOutIsNearestTiesToEven := by
  intro q hq
  have hnonneg : 0 ≤ roundHalfEven (q / ulp q) :=
    le_roundHalfEven (by simpa using div_nonneg hq (ulp_pos q).le)
  obtain ⟨n, hn⟩ := Int.eq_ofNat_of_zero_le hnonneg
  have hmin := outMinExp_le_binadeExp q
  refine ⟨n, binadeExp q - 52, ?_, by omega, ulp_eq_zpow q, ?_, ?_, ?_, ?_, ?_⟩
  · have hle : roundHalfEven (q / ulp q) ≤ 2 ^ 53 := roundHalfEven_le (mod_cast div_ulp_le q)
    rw [hn] at hle
    exact_mod_cast hle
  · rw [← ulp_eq_zpow, roundOut_eq, hn, Int.cast_natCast]
  · rw [← ulp_eq_zpow]
    exact abs_roundOut_sub_le q
  · intro htie
    have heven := roundHalfEven_even_of_roundOut_tie (ulp_eq_zpow q ▸ htie)
    omega
  · intro hnormal
    have hle : 2 ^ 52 ≤ roundHalfEven (q / ulp q) := le_roundHalfEven (mod_cast le_div_ulp_of_normal hnormal)
    rw [hn] at hle
    exact_mod_cast hle
  · intro h0 hsub
    rw [binadeExp_of_subnormal h0 hsub]
    rfl

end Sys2Proof.Machine
end

section
/-! PROOFS. The field steps as one family: the step of group `k` consumes the width of the group, writes the registers
of the group and goes on from bit `k + 1`. The other instructions beside them, so that later proofs split on nine kinds
of effect. -/

namespace Sys2Proof.Machine

/-! ### What a field step writes in the record -/

/-- Record `r'` is `r` after the step of group `k`: only the registers the group gates may differ, those of CORE hold
a value, the derived ones are written only with a `Derive` function attached, and what changed holds a value (R24,
R25, R31, R179). -/
structure GroupWritten (attached : Bool) (k : Fin 7) (r r' : Record) : Prop where
  other : ∀ f : Field, f.gate ≠ k → r'.get f = r.get f
  core : ∀ f : Field, f.gate = k → f.core = true → r'.valid f = true
  dewpoint : k = 3 → attached = true → r'.valid .dewpointC = true
  detached : attached = false → ∀ f : Field, f.core = false → r'.get f = r.get f
  changed : ∀ f : Field, r'.get f ≠ r.get f → r'.valid f = true

/-- The presence bit is read off the register (R25, log 16). -/
theorem Record.valid_congr {r r' : Record} {f : Field} (h : r'.get f = r.get f) : r'.valid f = r.valid f :=
  congrArg Option.isSome h

/-- Every group but that of the climate gates one register (R24). -/
theorem Field.gate_eq_iff {g : Field} (hg : g.gate ≠ 3) (f : Field) : f.gate = g.gate ↔ f = g := by
  cases g <;> cases f <;> simp [Field.gate] at hg ⊢

/-- A group of one register: a value was written to that register and nothing to the others. -/
theorem GroupWritten.of_single {attached : Bool} {r r' : Record} (g : Field) (hcore : g.core = true)
    (hg : g.gate ≠ 3) (hother : ∀ f, f = g ∨ r'.get f = r.get f) (hval : r'.valid g = true) :
    GroupWritten attached g.gate r r' where
  other f hf := (hother f).resolve_left fun h => hf (h ▸ rfl)
  core f hf _ := (Field.gate_eq_iff hg f).1 hf ▸ hval
  dewpoint h := absurd h hg
  detached _ f hf := (hother f).resolve_left fun h => by simp [h, hcore] at hf
  changed f hf := (hother f).resolve_right hf ▸ hval

/-- The group of temperature and humidity, with what an attached `Derive` gives (R169, R179). -/
theorem GroupWritten.of_climate (attached : Bool) (t h : FVal) (r : Record) :
    GroupWritten attached 3 r (writeClimate attached t h r) := by
  rw [writeClimate_eq]
  constructor
  case other => intro f; cases f <;> simp [Field.gate, climateRecord, Record.get]
  case core => intro f; cases f <;> simp [Field.gate, Field.core, climateRecord, Record.valid, Record.get]
  case dewpoint => intro _ ha; simp [ha, climateRecord, Record.valid, Record.get]
  case detached => intro ha f; cases f <;> simp [Field.core, ha, climateRecord, Record.get]
  case changed =>
    intro f
    cases f <;> cases attached <;> simp [climateRecord, Record.valid, Record.get]
    cases (derive t h).2 <;> simp

/-! ### The kinds of effect -/

@[simp] theorem State.setOff_self (s : State) : s.setOff s.off = s := rfl

/-- `Effect` with the seven field groups as one family, without the values they read. -/
inductive EffectKind (s : State) : Instr → State → Prop where
  | foreignChannel : s.ch ≠ s.cfg.channelId → EffectKind s .chgate s.enterNotMine
  | ownChannel : s.ch = s.cfg.channelId → EffectKind s .chgate s
  | foreignTag : EffectKind s .tagchk s.enterNotMine
  | ownTag : s.off + 1 ≤ s.len → Memory.byteAt s.mem 0 = some Config.tag →
      EffectKind s .tagchk ((s.setOff 1).setSt .awaitingBitmap)
  | bitmap (b : Byte) : s.off + 1 ≤ s.len → Memory.byteAt s.mem s.off = some b →
      EffectKind s .bmload (((s.setOff (s.off + 1)).setBm b).enterNext 0)
  | group (k : Fin 7) (r : Record) : s.off + groupWidth k ≤ s.len →
      GroupWritten s.cfg.deriveAttached k s.record r →
      EffectKind s (fieldInstr k) (((s.setOff (s.off + groupWidth k)).setRecord r).enterNext (k.val + 1))
  | micro (i : Instr) (v : RetVal) : isFrameStep i = false →
      EffectKind s i ((s.setOff (s.off + cursorWidth i)).setRet v)
  | aborted (i : Instr) : i ≠ .chgate → EffectKind s i s.takeOutOfBounds
  | abortedAtHumidity : s.off + 2 ≤ s.len → EffectKind s .field3 (s.setOff (s.off + 2)).takeOutOfBounds

/-- Every effect is of one of the kinds. -/
theorem Effect.kind {i : Instr} {s t : State} (h : Effect s i t) : EffectKind s i t := by
  cases h with
  | foreignChannel h => exact .foreignChannel h
  | ownChannel h => exact .ownChannel h
  | foreignTag b _ _ _ => exact .foreignTag
  | ownTag h1 h2 => exact .ownTag h1 h2
  | bitmap b h1 h2 => exact .bitmap b h1 h2
  | group0 v h _ =>
    exact .group 0 _ h (.of_single .batteryVoltage rfl (by decide)
      (fun f => by cases f <;> simp [Record.get]) rfl)
  | group1 v h _ =>
    exact .group 1 _ h (.of_single .busVoltage rfl (by decide)
      (fun f => by cases f <;> simp [Record.get]) rfl)
  | group2 v h _ =>
    exact .group 2 _ h (.of_single .bootCount rfl (by decide)
      (fun f => by cases f <;> simp [Record.get]) rfl)
  | group3 v u h _ _ => exact .group 3 _ h (.of_climate ..)
  | group4 v h _ =>
    exact .group 4 _ h (.of_single .lux rfl (by decide)
      (fun f => by cases f <;> simp [Record.get]) rfl)
  | group5 v h _ =>
    exact .group 5 _ h (.of_single .probeOneTemperatureC rfl (by decide)
      (fun f => by cases f <;> simp [Record.get]) rfl)
  | group6 v h _ =>
    exact .group 6 _ h (.of_single .probeTwoTemperatureC rfl (by decide)
      (fun f => by cases f <;> simp [Record.get]) rfl)
  | returned i v h _ => exact .micro i v h
  | computed i v h h0 => simpa [h0] using EffectKind.micro i v h
  | aborted i h _ => exact .aborted i h
  | abortedAtHumidity h _ => exact .abortedAtHumidity h

/-- The kind of what an instruction that answers a next state did. -/
theorem exec_effectKind {i : Instr} {s t : State} (h : exec i s = .next t) : EffectKind s i t :=
  (exec_effect h).kind

/-! ### The field steps as instructions -/

@[simp] theorem isFrameStep_fieldInstr (k : Fin 7) : isFrameStep (fieldInstr k) = true := by
  revert k; decide

/-- A field step consumes the bytes of its group (R73). -/
@[simp] theorem cursorWidth_fieldInstr (k : Fin 7) : cursorWidth (fieldInstr k) = groupWidth k := by
  revert k; decide

@[simp] theorem fieldInstr_ne_tagchk (k : Fin 7) : fieldInstr k ≠ .tagchk := by
  revert k; decide

@[simp] theorem fieldInstr_ne_chgate (k : Fin 7) : fieldInstr k ≠ .chgate := by
  revert k; decide

@[simp] theorem fieldInstr_ne_bmload (k : Fin 7) : fieldInstr k ≠ .bmload := by
  revert k; decide

/-- Different bits select different field steps (R72, R85). -/
theorem fieldInstr_injective {j k : Fin 7} (h : fieldInstr j = fieldInstr k) : j = k := by
  revert j k; decide

/-- Everything a field step can do. -/
theorem EffectKind.field_cases {s t : State} {k : Fin 7} (h : EffectKind s (fieldInstr k) t) :
    (∃ r, s.off + groupWidth k ≤ s.len ∧ GroupWritten s.cfg.deriveAttached k s.record r ∧
      t = ((s.setOff (s.off + groupWidth k)).setRecord r).enterNext (k.val + 1)) ∨
    t = s.takeOutOfBounds ∨
    (k = 3 ∧ s.off + 2 ≤ s.len ∧ t = (s.setOff (s.off + 2)).takeOutOfBounds) := by
  generalize hi : fieldInstr k = i at h
  cases h with
  | foreignChannel => simp at hi
  | ownChannel => simp at hi
  | foreignTag => simp at hi
  | ownTag => simp at hi
  | bitmap => simp at hi
  | group j r hlen hw =>
    obtain rfl := fieldInstr_injective hi
    exact .inl ⟨r, hlen, hw, rfl⟩
  | micro _ v hm => simp [← hi] at hm
  | aborted => exact .inr (.inl rfl)
  | abortedAtHumidity hlen => exact .inr (.inr ⟨fieldInstr_injective (k := 3) hi, hlen, rfl⟩)

end Sys2Proof.Machine
end

section
/-! PROOFS. What an instruction leaves unchanged: the record, the outputs and the cursor (10_state.md), from the kinds
of effect. Then the reset state, what START places, and the caller's read. -/

namespace Sys2Proof.Machine

/-- Going on to the next group or to `Done` touches no diagnostic register (R27, R173). -/
theorem State.enterNext_sameDiagnostic (s : State) (k : Nat) : SameDiagnostic s (s.enterNext k) :=
  ⟨by simp, by simp, by simp, by simp⟩

/-- What an instruction does to the record: nothing, the writes of its group, or the abort (R24, R216). -/
theorem EffectKind.record_cases {i : Instr} {s t : State} (h : EffectKind s i t) :
    t.record = s.record ∨
    (∃ k, i = fieldInstr k ∧ GroupWritten s.cfg.deriveAttached k s.record t.record) ∨
    (t.st = .failed ∧ t.record = Record.empty) := by
  cases h with
  | group k r _ hw => exact .inr (.inl ⟨k, rfl, by simpa using hw⟩)
  | aborted => exact .inr (.inr ⟨rfl, rfl⟩)
  | abortedAtHumidity => exact .inr (.inr ⟨rfl, rfl⟩)
  | bitmap => exact .inl (by simp)
  | _ => exact .inl rfl

/-- Settles O33: a changed register is one that the executed field step gates, or the record was cleared. -/
theorem recordRegistersHaveOneWriter : Obligations.RecordRegistersHaveOneWriter := by
  intro i s t f h hf
  rcases (exec_effectKind h).record_cases with hr | ⟨k, rfl, hw⟩ | hfail
  · exact absurd (by rw [hr]) hf
  · have hk : f.gate = k := by_contra fun hk => hf (hw.other f hk)
    exact .inl ⟨by rw [hk], hw.changed f hf⟩
  · exact .inr hfail

/-- Settles O34: by the kind of effect; only an abort, the routing and the end of the groups write outputs. -/
theorem outputsChangeOnlyAtAnEnd : Obligations.OutputsChangeOnlyAtAnEnd := by
  intro i s t h
  cases exec_effectKind h with
  | foreignChannel => exact ⟨fun _ => ⟨rfl, rfl, rfl, rfl⟩, by simp [isTerminal], by simp [isFrameStep]⟩
  | ownChannel => exact ⟨fun _ => ⟨rfl, rfl, rfl, rfl⟩, fun _ => ⟨rfl, rfl⟩, by simp [isFrameStep]⟩
  | foreignTag => exact ⟨fun _ => ⟨rfl, rfl, rfl, rfl⟩, by simp [isTerminal], by simp [isFrameStep]⟩
  | ownTag => exact ⟨fun _ => ⟨rfl, rfl, rfl, rfl⟩, fun _ => ⟨rfl, rfl⟩, by simp [isFrameStep]⟩
  | bitmap b =>
    exact ⟨fun _ => State.enterNext_sameDiagnostic .., fun ht => enterNext_outputs (by simpa using ht),
      by simp [isFrameStep]⟩
  | group k r =>
    exact ⟨fun _ => State.enterNext_sameDiagnostic .., fun ht => enterNext_outputs (by simpa using ht), by simp⟩
  | micro _ v => exact ⟨fun _ => ⟨rfl, rfl, rfl, rfl⟩, fun _ => ⟨rfl, rfl⟩, fun _ _ => ⟨rfl, rfl, rfl, rfl⟩⟩
  | aborted => exact ⟨by simp, by simp [isTerminal], by simp⟩
  | abortedAtHumidity => exact ⟨by simp, by simp [isTerminal], by simp⟩

/-- Settles O35: by the kind of effect; an abort keeps the cursor where the failing read began. -/
theorem cursorMovesByTheConsumedWidth : Obligations.CursorMovesByTheConsumedWidth := by
  intro i s t h
  cases exec_effectKind h with
  | foreignChannel => exact ⟨fun _ => .inr rfl, fun _ _ => rfl, by simp⟩
  | ownChannel => exact ⟨fun _ => .inr rfl, fun _ _ => rfl, fun h1 h2 => absurd h1 h2⟩
  | foreignTag => exact ⟨fun _ => .inr rfl, by simp, by simp⟩
  | ownTag => exact ⟨fun _ => .inl rfl, by simp, by simp⟩
  | bitmap b => exact ⟨by simp, by simp [cursorWidth], by simp [nextState_ne_failed]⟩
  | group k r => exact ⟨by simp, by simp, by simp [nextState_ne_failed]⟩
  | micro _ v hi =>
    exact ⟨fun h => by simp [h, isFrameStep] at hi, fun _ _ => rfl, fun h1 h2 => absurd h1 h2⟩
  | aborted => exact ⟨fun _ => .inr rfl, by simp, fun _ _ => .inl rfl⟩
  | abortedAtHumidity => exact ⟨by simp, by simp, fun _ _ => .inr ⟨rfl, rfl⟩⟩

/-- Settles O38: after reset the buffer, the record and the outputs are empty and the cursor is at 0. -/
theorem resetMeetsTheInvariant : Obligations.ResetMeetsTheInvariant := by
  constructor
  · exact ⟨rfl, ⟨Nat.le_refl 0, Nat.zero_le _, rfl⟩, rfl, ⟨rfl, rfl, rfl, rfl, rfl, rfl⟩, trivial⟩
  · simp [RangeOk, State.reset, Record.empty]

/-- Settles O6: the step is START, which places the buffer of the call's bytes. -/
theorem startPlacesACanonicalFrame : Obligations.StartPlacesACanonicalFrame := by
  intro s t c hc h
  rcases step_cases h with ⟨c', hc', -, rfl⟩ | ⟨hnone, -⟩
  · obtain rfl : c' = c := Option.some.inj (hc'.symm.trans hc)
    exact ⟨Memory.wf_ofBytes _, Memory.complete_ofBytes _, rfl, Memory.byteAt_ofBytes _⟩
  · simp [hc] at hnone

/-- Settles O52: the presence bit says whether the register holds a value, and the read answers that value. -/
theorem recordRegisterWithoutValueIsNotRead : Obligations.RecordRegisterWithoutValueIsNotRead := by
  intro s f
  cases h : s.record.get f <;> simp [Record.valid, readRecord, h]

end Sys2Proof.Machine
end

section
/-! PROOFS. The exact ranges of the record registers (R24): what a read hands to a field step is a value of the
register's range, and a property that START establishes and every instruction keeps is kept by every step. -/

namespace Sys2Proof.Machine

/-! ### The values the field steps write -/

/-- A two-byte read answers the two bytes it joined (R52, R53). -/
theorem memRead2_eq_some {m : Memory} {a : Nat} {v : Half} (h : memRead2 m a = some v) :
    ∃ b0 b1 : Byte, Memory.byteAt m a = some b0 ∧ Memory.byteAt m (a + 1) = some b1 ∧ v = b0 ++ b1 := by
  unfold memRead2 at h
  split at h
  next b0 b1 h0 h1 => exact ⟨b0, b1, h0, h1, (Option.some.inj h).symm⟩
  next => cases h

/-- A signed field over its scale, in arithmetic (R103, R141, R142). -/
theorem fixedPoint_signed16_append (scale : Nat) (b0 b1 : Byte) :
    fixedPoint scale (signed16 (b0 ++ b1)) = fixedI16 scale b0 b1 := by
  have h1 := b1.isLt
  have h0 := b0.isLt
  rw [signed16_append, fixedI16, fixedPoint]
  by_cases h : b0.toNat < 128
  · have hlow : b0.toNat * 256 + b1.toNat < 32768 := by omega
    have hnonneg : (0 : Int) ≤ ((b0.toNat * 256 + b1.toNat : Nat) : Int) := Int.natCast_nonneg _
    rw [if_pos h, if_pos hlow, if_pos hnonneg, Int.cast_natCast]
  · have hhigh : ¬ b0.toNat * 256 + b1.toNat < 32768 := by omega
    have hneg : ¬ (0 : Int) ≤ ((b0.toNat * 256 + b1.toNat : Nat) : Int) - 65536 := by omega
    rw [if_neg h, if_neg hhigh, if_neg hneg, Nat.cast_sub (by omega)]
    push_cast
    congr 2
    ring

/-- The scaling of CFDEC as one power of two (R125). -/
theorem cfScale_eq (m : Nat) (e : Int) : cfScale m e = m * (2 : Rat) ^ (e - 79) := by
  rw [cfScale, Config.expBias, show e - 63 = (e - 79) + 16 by ring, zpow_add₀ two_ne_zero]
  norm_num
  ring

/-- CFDEC of a word is the value of its class in the table (R81, R120 to R126). -/
theorem cfDecode_eq_cfValue (w : Word24) : cfDecode w = cfValue w.toNat := by
  have hexp (e : BitVec 7) : cfExp w = e ↔ cfE w.toNat = e.toNat := by rw [← cfExp_toNat, BitVec.toNat_inj]
  have hmant : cfMant w = 0 ↔ cfM w.toNat = 0 := by rw [← cfMant_toNat]; exact BitVec.toNat_inj.symm
  have hinf : cfInfinity (cfSign w) = if cfS w.toNat = 0 then .posInf else .negInf := by
    have hs := cfS_lt w
    rw [cfInfinity, cfSign_eq]
    interval_cases cfS w.toNat <;> rfl
  have hnormal : cfNormal (cfSign w) (cfExp w) (cfMant w) =
      .finite (decide (cfS w.toNat = 1)) ((65536 + cfM w.toNat : Nat) * (2 : Rat) ^ ((cfE w.toNat : Int) - 79)) := by
    rw [cfNormal, cfScale_eq, cfSign_eq, cfExp_toNat, cfMant_toNat, Nat.add_comm]
  have hdenormal : cfDenormal (cfSign w) (cfMant w) =
      .finite (decide (cfS w.toNat = 1)) (cfM w.toNat * (2 : Rat) ^ (-78 : Int)) := by
    rw [cfDenormal, cfScale_eq, cfSign_eq, cfMant_toNat]; norm_num
  simp only [cfDecode, cfValue, hexp, hmant, hinf, hnormal, hdenormal, ne_eq, ite_not]
  rfl

/-! ### The ranges -/

/-- The operations of one step keep what every instruction keeps. -/
theorem runSelected_keeps {P : State → Prop} (hexec : ∀ i s t, P s → exec i s = .next t → P t) {p : PState}
    {is : List Instr} {s t : State} (hs : P s) (h : runSelected p is s = .next t) : P t := by
  induction is generalizing s with
  | nil => exact next_injective h ▸ hs
  | cons i is ih =>
    rw [runSelected] at h
    split at h
    next u hu =>
      have hPu : P u := hexec i s u hs hu
      split at h
      · exact ih hPu h
      · exact next_injective h ▸ hPu
    next => cases h
    next => cases h

/-- What START establishes and every instruction keeps, every step keeps. -/
theorem step_keeps {P : State → Prop} (hstart : ∀ (s : State) (c : Call), P (s.start c))
    (hexec : ∀ i s t, P s → exec i s = .next t → P t) {s t : State} (hs : P s) (h : step s = .next t) : P t := by
  rcases step_cases h with ⟨c, -, -, rfl⟩ | ⟨-, h⟩
  · exact hstart s c
  · exact runSelected_keeps hexec hs h

/-- A record without a value is within the ranges. -/
theorem rangeOk_of_empty {s : State} (h : s.record = Record.empty) : RangeOk s := by
  simp [RangeOk, h, Record.empty]

/-- Going on from a group writes no record register. -/
theorem rangeOk_enterNext {s : State} (hs : RangeOk s) (k : Nat) : RangeOk (s.enterNext k) := by
  rw [RangeOk, State.enterNext_record]; exact hs

/-- A voltage read from the frame is of the range of its register (R24, R141). -/
theorem isFixedPoint_voltage {m : Memory} {a : Nat} {v : Half} (h : memRead2 m a = some v) :
    IsFixedPoint 4096 (voltage (signed16 v)) := by
  obtain ⟨b0, b1, -, -, rfl⟩ := memRead2_eq_some h
  exact ⟨b0, b1, fixedPoint_signed16_append _ b0 b1⟩

/-- A temperature read from the frame is of the range of its register (R24, R142). -/
theorem isFixedPoint_temperature {m : Memory} {a : Nat} {v : Half} (h : memRead2 m a = some v) :
    IsFixedPoint 256 (temperature (signed16 v)) := by
  obtain ⟨b0, b1, -, -, rfl⟩ := memRead2_eq_some h
  exact ⟨b0, b1, fixedPoint_signed16_append _ b0 b1⟩

/-- Every instruction keeps the ranges: a field step writes a value of the range of its register. -/
theorem rangeOk_of_exec {i : Instr} {s t : State} (hs : RangeOk s) (h : exec i s = .next t) : RangeOk t := by
  have ⟨hbattery, hbus, htemp, hhum, hlux, hone, htwo⟩ := hs
  cases exec_effect h with
  | group0 v _ hv =>
    refine rangeOk_enterNext ?_ _
    exact ⟨fun _ h => Option.some.inj h ▸ isFixedPoint_voltage hv, hbus, htemp, hhum, hlux, hone, htwo⟩
  | group1 v _ hv =>
    refine rangeOk_enterNext ?_ _
    exact ⟨hbattery, fun _ h => Option.some.inj h ▸ isFixedPoint_voltage hv, htemp, hhum, hlux, hone, htwo⟩
  | group2 v =>
    refine rangeOk_enterNext ?_ _
    exact ⟨hbattery, hbus, htemp, hhum, hlux, hone, htwo⟩
  | group3 v u _ hv hu =>
    obtain ⟨b0, b1, -, -, rfl⟩ := memRead2_eq_some hu
    rw [writeClimate_eq, humidity_append]
    refine rangeOk_enterNext ?_ _
    exact ⟨hbattery, hbus, fun _ h => Option.some.inj h ▸ isFixedPoint_temperature hv,
      fun _ h => ⟨b0, b1, (Option.some.inj h).symm⟩, hlux, hone, htwo⟩
  | group4 v _ _ =>
    refine rangeOk_enterNext ?_ _
    exact ⟨hbattery, hbus, htemp, hhum,
      fun _ h => ⟨v.toNat, v.isLt, Option.some.inj h ▸ cfDecode_eq_cfValue v⟩, hone, htwo⟩
  | group5 v _ hv =>
    refine rangeOk_enterNext ?_ _
    exact ⟨hbattery, hbus, htemp, hhum, hlux,
      fun _ h => Option.some.inj h ▸ isFixedPoint_temperature hv, htwo⟩
  | group6 v _ hv =>
    refine rangeOk_enterNext ?_ _
    exact ⟨hbattery, hbus, htemp, hhum, hlux, hone,
      fun _ h => Option.some.inj h ▸ isFixedPoint_temperature hv⟩
  | aborted => exact rangeOk_of_empty rfl
  | abortedAtHumidity => exact rangeOk_of_empty rfl
  | bitmap b => exact rangeOk_enterNext (s := (s.setOff (s.off + 1)).setBm b) hs 0
  | _ => exact hs

/-- Settles O40: START clears the record, and every instruction keeps the ranges. -/
theorem recordRangesAreKeptByEveryStep : Obligations.RecordRangesAreKeptByEveryStep :=
  fun _ _ hs h => step_keeps (fun _ _ => rangeOk_of_empty rfl) (fun _ _ _ hs h => rangeOk_of_exec hs h) hs h

end Sys2Proof.Machine
end

section
/-! PROOFS. The invariant of the block (R25 to R27, R32, R33): what a decode has established between two groups, that a
field step carries it from one group to the next, and that every way to leave a parser state restores the invariant. -/

namespace Sys2Proof.Machine

/-! ### The offsets of the groups -/

/-- The group after `k` begins where group `k` ends (R174). -/
theorem groupPos_succ (k : Fin 7) (b : Byte) : groupPos (k.val + 1) b = groupPos k.val b + groupBytes b k := by
  fin_cases k <;> simp [groupPos, bytesBelow] <;> omega

/-- No group lies between the positions of two bits with no set bit between them (R165, R174). -/
theorem groupPos_of_gap {b : Byte} {k j : Nat} (hkj : k ≤ j) (hj : j ≤ 7)
    (hgap : ∀ i : Fin 7, k ≤ i.val → i.val < j → b.getLsbD i.val = false) : groupPos j b = groupPos k b := by
  induction j, hkj using Nat.le_induction with
  | base => rfl
  | succ j hkj ih =>
    have hbit : b.getLsbD j = false := hgap ⟨j, by omega⟩ hkj (Nat.lt_succ_self j)
    rw [groupPos_succ ⟨j, by omega⟩, ih (by omega) fun i hk hi => hgap i hk (by omega)]
    simp [groupBytes, hbit]

/-- The groups of a frame take at most their widths (R73). -/
theorem bytesBelow_le (b : Byte) (k : Nat) (js : List (Fin 7)) : bytesBelow b k js ≤ (js.map groupWidth).sum := by
  induction js with
  | nil => exact Nat.le_refl 0
  | cons j js ih =>
    have hj : (if j.val < k then groupBytes b j else 0) ≤ groupWidth j := by
      unfold groupBytes; split_ifs <;> omega
    simp only [bytesBelow, List.map_cons, List.sum_cons]
    omega

/-- No group begins after the longest frame (R78). -/
theorem groupPos_le (k : Nat) (b : Byte) : groupPos k b ≤ Config.maxUsed :=
  Nat.add_le_add_left (bytesBelow_le b k _) 2

/-! ### Between two groups -/

/-- What a running decode has established once the groups below `k` are decoded and no output is written (R32, R33,
R162 to R164). -/
structure DecodedBelow (s : State) (k : Nat) : Prop where
  complete : Memory.complete s.mem s.len = true
  inside : s.off ≤ s.len
  cursor : s.off = groupPos k s.bm
  present : PresentBelow s k
  status : s.status = none
  offFinal : s.offFinal = none
  diagnostic : NoDiagnostic s
  header : HeaderAccepted s
  bitmap : Memory.byteAt s.mem 1 = some s.bm

/-- The invariant at group `k`: the groups below are decoded and the bitmap has the group (R33). -/
theorem inv_field_iff {s : State} {k : Fin 7} (hst : s.st = .field k) :
    Inv s ↔ DecodedBelow s k.val ∧ s.bm.getLsbD k.val = true := by
  constructor
  · rintro ⟨hmem, hcur, hrec, hout, hhead⟩
    simp only [CursorOk, RecordOk, OutputsOk, HeaderOk, hst] at hcur hrec hout hhead
    obtain ⟨hin, -, hbit, hoff⟩ := hcur
    exact ⟨⟨hmem, hin, hoff, hrec, hout.1, hout.2.1, hout.2.2, hhead.1, hhead.2⟩, hbit⟩
  · rintro ⟨h, hbit⟩
    simp only [Inv, CursorOk, RecordOk, OutputsOk, HeaderOk, hst]
    exact ⟨h.complete, ⟨h.inside, h.cursor ▸ groupPos_le _ _, hbit, h.cursor⟩, h.present,
      ⟨h.status, h.offFinal, h.diagnostic⟩, h.header, h.bitmap⟩

/-- Entering `Done` after the last group (R173). -/
theorem inv_enterDone {s : State} (h : DecodedBelow s 7) : Inv s.enterDone :=
  ⟨h.complete, ⟨h.inside, h.cursor.trans_le (groupPos_le 7 s.bm), h.cursor⟩, h.present, ⟨rfl, rfl, h.diagnostic⟩,
    h.header, h.bitmap⟩

/-- Skipping groups the bitmap does not have establishes nothing new and loses nothing. -/
theorem DecodedBelow.of_gap {s : State} {k j : Nat} (h : DecodedBelow s k) (hkj : k ≤ j) (hj : j ≤ 7)
    (hgap : ∀ i : Fin 7, k ≤ i.val → i.val < j → s.bm.getLsbD i.val = false) : DecodedBelow s j := by
  have hbelow (i : Fin 7) :
      (decide (i.val < k) && s.bm.getLsbD i.val) = (decide (i.val < j) && s.bm.getLsbD i.val) := by
    by_cases hi : k ≤ i.val ∧ i.val < j
    · simp [hgap i hi.1 hi.2]
    · rw [decide_eq_decide.2 (show i.val < k ↔ i.val < j by omega)]
  obtain ⟨hcore, hdew, hheat⟩ := h.present
  refine { h with
    cursor := h.cursor.trans (groupPos_of_gap hkj hj hgap).symm
    present := ⟨fun f hf => (hcore f hf).trans (hbelow f.gate), ?_, hheat⟩ }
  rw [hdew, Bool.and_assoc, Bool.and_assoc]
  exact congrArg _ (hbelow 3)

/-- Going on to the next group, or to `Done`, restores the invariant (R165, R173). -/
theorem inv_enterNext {s : State} {k : Nat} (hk : k ≤ 7) (h : DecodedBelow s k) : Inv (s.enterNext k) := by
  rcases nextState_cases k s.bm with ⟨j, hkj, hbit, hgap, hnext⟩ | ⟨hgap, hnext⟩
  · have hj : DecodedBelow s j.val := h.of_gap hkj (by omega) hgap
    rw [State.enterNext_of_field hnext, inv_field_iff rfl]
    exact ⟨{ hj with }, hbit⟩
  · rw [State.enterNext_of_done hnext]
    exact inv_enterDone (h.of_gap hk (Nat.le_refl 7) fun i hi _ => hgap i hi)

/-! ### A field step -/

/-- The derived registers are written with temperature and humidity and an attached `Derive` function, or kept
(R179). -/
theorem GroupWritten.derived_cases {attached : Bool} {k : Fin 7} {r r' : Record} (h : GroupWritten attached k r r') :
    (k = 3 ∧ attached = true ∧ r'.valid .dewpointC = true) ∨
    ((k = 3 → attached = false) ∧ r'.valid .dewpointC = r.valid .dewpointC ∧
      r'.valid .heatIndexC = r.valid .heatIndexC) := by
  by_cases hk : k = 3
  · cases ha : attached with
    | true => exact .inl ⟨hk, rfl, h.dewpoint hk ha⟩
    | false =>
      exact .inr ⟨fun _ => rfl, Record.valid_congr (h.detached ha _ rfl), Record.valid_congr (h.detached ha _ rfl)⟩
  · exact .inr ⟨fun h3 => absurd h3 hk, Record.valid_congr (h.other _ (Ne.symm hk)),
      Record.valid_congr (h.other _ (Ne.symm hk))⟩

/-- The presence bits after the step of group `k` are those of the groups below `k + 1` (R25, R33). -/
theorem presentBelow_succ {s : State} {k : Fin 7} {r : Record} {n : Nat} (h : PresentBelow s k.val)
    (hbit : s.bm.getLsbD k.val = true) (hw : GroupWritten s.cfg.deriveAttached k s.record r) :
    PresentBelow ((s.setOff n).setRecord r) (k.val + 1) := by
  obtain ⟨hcore, hdew, hheat⟩ := h
  have hkeep (i : Fin 7) (hi : i ≠ k) :
      (decide (i.val < k.val) && s.bm.getLsbD i.val) = (decide (i.val < k.val + 1) && s.bm.getLsbD i.val) := by
    rw [decide_eq_decide.2 (show i.val < k.val ↔ i.val < k.val + 1 by omega)]
  refine ⟨fun f hf => ?_, ?_⟩
  · by_cases hk : f.gate = k
    · simp [hw.core f hk hf, hk, hbit]
    · exact (Record.valid_congr (hw.other f hk)).trans ((hcore f hf).trans (hkeep f.gate hk))
  · rcases hw.derived_cases with ⟨rfl, ha, hd⟩ | ⟨ha, hd, hh⟩
    · exact ⟨by simpa [ha, hd] using hbit.symm, fun _ => hd⟩
    · refine ⟨?_, by simpa [hd, hh] using hheat⟩
      by_cases hk : k = 3
      · simp [hd, hdew, ha hk]
      · refine hd.trans (hdew.trans ?_)
        rw [Bool.and_assoc, Bool.and_assoc]
        exact congrArg _ (hkeep 3 (Ne.symm hk))

/-- The step of group `k` decodes it: the groups below `k + 1` are decoded. -/
theorem DecodedBelow.group_written {s : State} {k : Fin 7} {r : Record} (h : DecodedBelow s k.val)
    (hbit : s.bm.getLsbD k.val = true) (hlen : s.off + groupWidth k ≤ s.len)
    (hw : GroupWritten s.cfg.deriveAttached k s.record r) :
    DecodedBelow ((s.setOff (s.off + groupWidth k)).setRecord r) (k.val + 1) :=
  { h with
    inside := hlen
    cursor := by simp [groupPos_succ, groupBytes, hbit, h.cursor]
    present := presentBelow_succ h.present hbit hw }

/-! ### The ends and the header -/

/-- The abort of a decode whose channel and tag, where it had read it, were the right ones (R213, R214, R216). -/
theorem inv_takeOutOfBounds {s : State} (hmem : Memory.complete s.mem s.len = true) (hin : s.off ≤ s.len)
    (hmax : s.off ≤ Config.maxUsed) (hch : s.ch = s.cfg.channelId)
    (htag : 1 ≤ s.off → Memory.byteAt s.mem 0 = some Config.tag) : Inv s.takeOutOfBounds := by
  refine ⟨hmem, ⟨hin, hmax, trivial⟩, rfl, ⟨rfl, rfl, congrArg some hch, rfl, ?_, rfl⟩, hch⟩
  exact ite_congr rfl htag fun _ => rfl

/-- The abort of a field step (R169, R213). -/
theorem DecodedBelow.inv_abort {s : State} {k n : Nat} (h : DecodedBelow s k) (hin : n ≤ s.len)
    (hmax : n ≤ Config.maxUsed) : Inv (s.setOff n).takeOutOfBounds :=
  inv_takeOutOfBounds (s := s.setOff n) h.complete hin hmax h.header.1 fun _ => h.header.2

/-- A field step keeps the invariant: it goes on behind its group, or the frame was too short for it. -/
theorem inv_of_field {s t : State} {k : Fin 7} (hst : s.st = .field k) (hinv : Inv s)
    (h : exec (fieldInstr k) s = .next t) : Inv t := by
  obtain ⟨hdec, hbit⟩ := (inv_field_iff hst).1 hinv
  have hend : s.off + groupWidth k ≤ Config.maxUsed := by
    have hpos := groupPos_succ k s.bm
    rw [groupBytes, if_pos hbit, ← hdec.cursor] at hpos
    exact hpos ▸ groupPos_le ..
  rcases (exec_effectKind h).field_cases with ⟨r, hlen, hw, rfl⟩ | rfl | ⟨rfl, hlen, rfl⟩
  · exact inv_enterNext (by omega) (hdec.group_written hbit hlen hw)
  · exact hdec.inv_abort hdec.inside (by omega)
  · exact hdec.inv_abort hlen (Nat.le_trans (Nat.add_le_add_left (by decide) _) hend)

/-- BMLOAD keeps the invariant: the groups below 0 are decoded, or the frame was too short (R164). -/
theorem inv_of_bitmap {s t : State} (hst : s.st = .awaitingBitmap) (hinv : Inv s)
    (h : exec .bmload s = .next t) : Inv t := by
  obtain ⟨hmem, hcur, hrec, hout, hhead⟩ := hinv
  simp only [CursorOk, RecordOk, OutputsOk, HeaderOk, hst] at hcur hrec hout hhead
  obtain ⟨hin, hmax, hoff⟩ := hcur
  obtain ⟨hstatus, hfinal, hdiag⟩ := hout
  cases exec_effect h with
  | bitmap b hlen hb =>
    have hnone : PresentBelow ((s.setOff (s.off + 1)).setBm b) 0 := by simp [PresentBelow, hrec]
    exact inv_enterNext (Nat.zero_le 7)
      ⟨hmem, hlen, by simp [hoff, groupPos, bytesBelow], hnone, hstatus, hfinal, hdiag, hhead, hoff ▸ hb⟩
  | returned _ v hi => simp [isFrameStep] at hi
  | computed _ v hi => simp [isFrameStep] at hi
  | aborted => exact inv_takeOutOfBounds hmem hin hmax hhead.1 fun _ => hhead.2

/-- The step at `AwaitingTag` is the gate, and TAGCHK if the gate passes (R161, R162). -/
theorem header_step_cases {s t : State} (hst : s.st = .awaitingTag)
    (h : runSelected .awaitingTag [.chgate, .tagchk] s = .next t) :
    t = s.enterNotMine ∨ (s.ch = s.cfg.channelId ∧ exec .tagchk s = .next t) := by
  rw [runSelected] at h
  split at h
  next u hu =>
    cases exec_effect hu with
    | foreignChannel hch => exact .inl (next_injective h)
    | ownChannel hch => exact .inr ⟨hch, by rwa [if_pos hst, runSelected_singleton] at h⟩
    | returned _ v hi => simp [isFrameStep] at hi
    | computed _ v hi => simp [isFrameStep] at hi
    | aborted _ hi => exact absurd rfl hi
  next => cases h
  next => cases h

/-- The gate and TAGCHK keep the invariant: routed elsewhere, past the header, or no byte at all (R162, R163). -/
theorem inv_of_header {s t : State} (hst : s.st = .awaitingTag) (hinv : Inv s)
    (h : runSelected .awaitingTag [.chgate, .tagchk] s = .next t) : Inv t := by
  obtain ⟨hmem, hcur, hrec, hout, -⟩ := hinv
  simp only [CursorOk, RecordOk, OutputsOk, hst] at hcur hrec hout
  obtain ⟨hin, hmax, hoff⟩ := hcur
  obtain ⟨hstatus, hfinal, hdiag⟩ := hout
  have hrouted : Inv s.enterNotMine :=
    ⟨hmem, ⟨hin, hmax, hoff⟩, hrec, ⟨rfl, congrArg some hoff.symm, hdiag⟩, trivial⟩
  rcases header_step_cases hst h with rfl | ⟨hch, h⟩
  · exact hrouted
  · cases exec_effect h with
    | foreignTag => exact hrouted
    | ownTag hlen htag =>
      exact ⟨hmem, ⟨by simpa [hoff] using hlen, (by decide : 1 ≤ Config.maxUsed), rfl⟩, hrec,
        ⟨hstatus, hfinal, hdiag⟩, hch, htag⟩
    | returned _ v hi => simp [isFrameStep] at hi
    | computed _ v hi => simp [isFrameStep] at hi
    | aborted => exact inv_takeOutOfBounds hmem hin hmax hch fun hpos => by omega

/-- START establishes the invariant (R241). -/
theorem inv_start (s : State) (c : Call) : Inv (s.start c) :=
  ⟨Memory.complete_ofBytes _, ⟨Nat.zero_le _, Nat.zero_le _, rfl⟩, rfl, ⟨rfl, rfl, rfl, rfl, rfl, rfl⟩, trivial⟩

/-- Settles O39: START establishes the invariant, and by the parser state the step that leaves it keeps it. -/
theorem invariantIsKeptByEveryStep : Obligations.InvariantIsKeptByEveryStep := by
  intro s t hinv h
  rcases step_cases h with ⟨c, -, -, rfl⟩ | ⟨-, h⟩
  · exact inv_start s c
  · cases hst : s.st with
    | awaitingTag => rw [hst] at h; exact inv_of_header hst hinv h
    | awaitingBitmap =>
      rw [hst, selected, runSelected_singleton] at h
      exact inv_of_bitmap hst hinv h
    | field k =>
      rw [hst, selected, runSelected_singleton] at h
      exact inv_of_field hst hinv h
    | _ => rw [hst] at h; exact next_injective h ▸ hinv

end Sys2Proof.Machine
end

section
/-! PROOFS. The frame buffer and the other inputs of a decode: no instruction writes them (20_memory.md R56), and a
read joins its bytes most significant first (R53). -/

namespace Sys2Proof.Machine

/-! ### What no instruction writes -/

/-- Going on to the next group or to `Done` writes no input (R165, R173). -/
theorem State.enterNext_sameInputs (s : State) (k : Nat) : SameInputs s (s.enterNext k) :=
  ⟨by simp, by simp, by simp, by simp, by simp⟩

/-- No instruction writes an input of the decode, a constant of the instance or the pending call (R20, R28, R56). -/
theorem EffectKind.sameInputs {i : Instr} {s t : State} (h : EffectKind s i t) : SameInputs s t := by
  cases h with
  | bitmap b => exact State.enterNext_sameInputs ((s.setOff (s.off + 1)).setBm b) 0
  | group k r =>
    exact State.enterNext_sameInputs ((s.setOff (s.off + groupWidth k)).setRecord r) (k.val + 1)
  | _ => exact ⟨rfl, rfl, rfl, rfl, rfl⟩

/-- BMLOAD is the one writer of `BM` (R23, R164). -/
theorem EffectKind.bm_eq {i : Instr} {s t : State} (h : EffectKind s i t) (hi : i ≠ .bmload) : t.bm = s.bm := by
  cases h with
  | bitmap => exact absurd rfl hi
  | group => simp
  | _ => rfl

/-- A frame step does not touch the latch of the micro-operations (log 9). -/
theorem EffectKind.ret_eq {i : Instr} {s t : State} (h : EffectKind s i t) (hi : isFrameStep i = true) :
    t.ret = s.ret := by
  cases h with
  | bitmap => simp
  | group => simp
  | micro _ _ hm => simp [hm] at hi
  | _ => rfl

/-- Settles O32: by the kind of effect; the buffer is the same list of cells, so every address reads the same. -/
theorem noOperationWritesItsInputs : Obligations.NoOperationWritesItsInputs := by
  intro i s t h
  have hkind := exec_effectKind h
  obtain ⟨-, -, hmem, -, -⟩ := hkind.sameInputs
  exact ⟨hkind.sameInputs, fun a => by rw [hmem], hkind.bm_eq, hkind.ret_eq⟩

/-! ### The bits of a read -/

/-- The lower eight bits of a join are the byte joined last (R53). -/
theorem getLsbD_append_byte_low {n : Nat} (x : BitVec n) (b : Byte) {j : Nat} (hj : j < 8) :
    (x ++ b).getLsbD j = b.getLsbD j := by
  simp [BitVec.getLsbD_append, hj]

/-- Joining a byte moves the bits before it up by eight places (R53). -/
theorem getLsbD_append_byte_high {n : Nat} (x : BitVec n) (b : Byte) (j : Nat) :
    (x ++ b).getLsbD (8 + j) = x.getLsbD j := by
  simp [BitVec.getLsbD_append]

/-- Settles O5: a read joins its bytes, and each join puts a byte below the bits joined before. -/
theorem frameReadsAreBigEndian : Obligations.FrameReadsAreBigEndian := by
  refine ⟨fun m a b0 => memRead1_of_byte, ?_, ?_⟩
  · intro m a b0 b1 h0 h1
    refine ⟨b0 ++ b1, memRead2_of_bytes h0 h1, toNat_append_bytes2 b0 b1, fun j hj => ⟨?_, ?_⟩⟩
    · exact getLsbD_append_byte_high b0 b1 j
    · exact getLsbD_append_byte_low b0 b1 hj
  · intro m a b0 b1 b2 h0 h1 h2
    refine ⟨b0 ++ b1 ++ b2, memRead3_of_bytes h0 h1 h2, toNat_append_bytes3 b0 b1 b2, fun j hj => ⟨?_, ?_, ?_⟩⟩
    · calc (b0 ++ b1 ++ b2).getLsbD (16 + j)
          = (b0 ++ b1 ++ b2).getLsbD (8 + (8 + j)) := by rw [← Nat.add_assoc]
        _ = (b0 ++ b1).getLsbD (8 + j) := getLsbD_append_byte_high (b0 ++ b1) b2 (8 + j)
        _ = b0.getLsbD j := getLsbD_append_byte_high b0 b1 j
    · calc (b0 ++ b1 ++ b2).getLsbD (8 + j)
          = (b0 ++ b1).getLsbD j := getLsbD_append_byte_high (b0 ++ b1) b2 j
        _ = b1.getLsbD j := getLsbD_append_byte_low b0 b1 hj
    · exact getLsbD_append_byte_low (b0 ++ b1) b2 hj

end Sys2Proof.Machine
end

section
/-! PROOFS. The encodings (30_encoding.md): the decoder reads back what the encoder writes, the class rows share the
24-bit words out among them, and the length of a frame from its bitmap. -/

namespace Sys2Proof.Machine

/-! ### The field steps, selected by one bit -/

/-- A field step is encoded as the bitmap with its bit alone (R72, R85). -/
theorem encode_fieldInstr (k : Fin 7) : encode (fieldInstr k) = [BitVec.twoPow 8 k.val] := by
  revert k; decide

/-- The field steps stand where the bitmap selects them (R85). -/
theorem slot_fieldInstr (k : Fin 7) : (fieldInstr k).slot = .select 0 := by
  revert k; decide

/-- The least set bit of a bitmap with one bit is that bit (R165). -/
theorem firstGroup_twoPow (k : Fin 7) : firstGroup 0 (BitVec.twoPow 8 k.val) = some k := by
  refine (firstGroup_eq_some_iff ..).2 ⟨Nat.zero_le _, ?_, fun i _ hi => ?_⟩
  · simp [k.isLt.trans (by decide : 7 < 8)]
  · simp [BitVec.getLsbD_twoPow, Fin.val_ne_of_ne hi.ne']

/-- The bitmap with the bit of a field step alone is decoded to that step (R72, R85). -/
theorem decode_encode_fieldInstr (k : Fin 7) (rest : List Byte) :
    decode (fieldInstr k).slot (encode (fieldInstr k) ++ rest) = .ok (fieldInstr k, rest) := by
  rw [slot_fieldInstr, encode_fieldInstr, List.singleton_append, decode, firstGroup_twoPow]

/-! ### The classes of a compact float word -/

/-- The class row of a word, by the word's fields (R81, R121). -/
inductive ClassRow : Word24 → Instr → Prop where
  | inf (sgn : Bool) : ClassRow (cfWord sgn 0x7F 0) (.cfdecInf sgn)
  | nan (sgn : Bool) (m : Half) : m ≠ 0 → ClassRow (cfWord sgn 0x7F m) (.cfdecNan sgn m)
  | norm (sgn : Bool) (e : BitVec 7) (m : Half) : e ≠ 0 → e ≠ 0x7F →
      ClassRow (cfWord sgn e m) (.cfdecNorm sgn e m)
  | den (sgn : Bool) (m : Half) : ClassRow (cfWord sgn 0 m) (.cfdecDen sgn m)

/-- Every word has a class row: no word is reserved (R81). -/
theorem exists_classRow (w : Word24) : ∃ i, ClassRow w i := by
  rw [← cfWord_fields w]
  generalize cfSign w = sgn, cfExp w = e, cfMant w = m
  by_cases hzero : e = 0
  · exact hzero ▸ ⟨_, .den sgn m⟩
  by_cases htop : e = 0x7F
  · subst htop
    by_cases hm : m = 0
    · exact hm ▸ ⟨_, .inf sgn⟩
    · exact ⟨_, .nan sgn m hm⟩
  · exact ⟨_, .norm sgn e m hzero htop⟩

/-- The exponents of the class NORM (R81). -/
theorem normalExp_iff (e : BitVec 7) : (1 ≤ e.toNat ∧ e.toNat ≤ 126) ↔ e ≠ 0 ∧ e ≠ 0x7F := by
  constructor
  · bv_omega
  · bv_omega

section
variable {w : Word24} {i : Instr}

theorem ClassRow.wellFormed (h : ClassRow w i) : i.wellFormed = true := by
  cases h with
  | inf sgn => rfl
  | nan sgn m hm => exact decide_eq_true hm
  | norm sgn e m hzero htop => simpa [Instr.wellFormed] using (normalExp_iff e).2 ⟨hzero, htop⟩
  | den sgn m => rfl

theorem ClassRow.slot_eq (h : ClassRow w i) : i.slot = .cfClass := by
  cases h <;> rfl

/-- A class row is encoded as its word (R75). -/
theorem ClassRow.encode_eq (h : ClassRow w i) : encode i = cfBytes w := by
  cases h <;> rfl

/-- The decoder classifies a word as its class row, so a word has no two (R81). -/
theorem ClassRow.cfClassify_eq (h : ClassRow w i) : cfClassify w = i := by
  cases h with
  | inf sgn => simp [cfClassify]
  | nan sgn m hm => simpa [cfClassify] using hm
  | norm sgn e m hzero htop => rw [cfClassify, cfExp_cfWord, if_neg htop, if_neg hzero, cfSign_cfWord, cfMant_cfWord]
  | den sgn m => simp [cfClassify]

/-- A class row computes what CFDEC of its word computes (R120 to R124). -/
theorem ClassRow.exec_eq (h : ClassRow w i) (s : State) : exec i s = exec (.cfdec w) s := by
  suffices hvalue : exec i s = .next (s.setRet (.fval (cfDecode w))) from hvalue
  cases h with
  | inf sgn => simp [exec, execCfdecInf, cfDecode]
  | nan sgn m hm => rw [cfDecode, cfExp_cfWord, if_pos rfl, cfMant_cfWord, if_neg hm]; rfl
  | norm sgn e m hzero htop =>
    rw [cfDecode, cfExp_cfWord, if_neg htop, if_pos hzero, cfSign_cfWord, cfMant_cfWord]; rfl
  | den sgn m => simp [exec, execCfdecDen, cfDecode]

end

/-- Three bytes to be classified are decoded to the class of the word they make (R81). -/
theorem decode_cfClass_cfBytes (w : Word24) (rest : List Byte) :
    decode .cfClass (cfBytes w ++ rest) = .ok (cfClassify w, rest) := by
  simp only [cfBytes, List.cons_append, List.nil_append, decode, cfBytes_join]

/-- Three bytes as the operand of CFDEC are decoded to CFDEC of the word they make (R86). -/
theorem decode_cfdec_cfBytes (w : Word24) (rest : List Byte) :
    decode (.operand .cfdec) (cfBytes w ++ rest) = .ok (.cfdec w, rest) := by
  simp only [cfBytes, List.cons_append, List.nil_append, decode, decodeMicro, cfBytes_join]

/-- The encoding of a class row is decoded to that row. -/
theorem ClassRow.decode_encode {w : Word24} {i : Instr} (h : ClassRow w i) (rest : List Byte) :
    decode i.slot (encode i ++ rest) = .ok (i, rest) := by
  rw [h.slot_eq, h.encode_eq, decode_cfClass_cfBytes, h.cfClassify_eq]

/-- Settles O2: the field steps by their one bit, CFDEC and its classes by the fields of the word, and the other
encodings, which have no operand, by reading them. -/
theorem decodeOfEncodeIsTheInstruction : Obligations.DecodeOfEncodeIsTheInstruction := by
  intro i rest hwf
  cases i with
  | field0 => exact decode_encode_fieldInstr 0 rest
  | field1 => exact decode_encode_fieldInstr 1 rest
  | field2 => exact decode_encode_fieldInstr 2 rest
  | field3 => exact decode_encode_fieldInstr 3 rest
  | field4 => exact decode_encode_fieldInstr 4 rest
  | field5 => exact decode_encode_fieldInstr 5 rest
  | field6 => exact decode_encode_fieldInstr 6 rest
  | cfdec w => exact decode_cfdec_cfBytes w rest
  | cfdecInf sgn => exact (ClassRow.inf sgn).decode_encode rest
  | cfdecNan sgn m => exact (ClassRow.nan sgn m (of_decide_eq_true hwf)).decode_encode rest
  | cfdecNorm sgn e m =>
    obtain ⟨hzero, htop⟩ := (normalExp_iff e).1 (by simpa [Instr.wellFormed] using hwf)
    exact (ClassRow.norm sgn e m hzero htop).decode_encode rest
  | cfdecDen sgn m => exact (ClassRow.den sgn m).decode_encode rest
  | chgate | tagchk | bmload => rfl
  | rdu8 | rdu16 | rdi16 | rdu24 | volt | temp | rh | lux | boot => rfl

/-- Settles O3: the class row of the word the three bytes make. -/
theorem everyCompactWordHasOneClass : Obligations.EveryCompactWordHasOneClass := by
  intro b0 b1 b2 rest
  obtain ⟨i, hi⟩ := exists_classRow (b0 ++ b1 ++ b2)
  have henc : encode i = [b0, b1, b2] := hi.encode_eq.trans (cfBytes_append b0 b1 b2)
  have hdec := hi.decode_encode rest
  rw [hi.slot_eq, henc] at hdec
  exact ⟨i, hdec, hi.wellFormed, hi.slot_eq, henc, hi.exec_eq⟩

/-! ### The words of the opcode table -/

/-- A table word that is the encoding of an instruction, at that instruction's place, is read as it (log 13). -/
theorem decodeTableWord_of_encode {nbits w : Nat} {i : Instr} (hslot : tableSlot nbits w = some i.slot)
    (hbytes : bytesOfNat (nbits / 8) w = encode i) (hwf : i.wellFormed = true) :
    decodeTableWord nbits w = some i := by
  have hdec := decodeOfEncodeIsTheInstruction i [] hwf
  rw [List.append_nil] at hdec
  simp only [decodeTableWord, hslot, hbytes, hdec]

/-- Settles O1: each word is the encoding of its row and stands at its place. -/
theorem tableWordsDecodeToTheirRows : Obligations.TableWordsDecodeToTheirRows := by
  refine ⟨?_, ?_, ?_, ?_, ?_, ?_, ?_, ?_, ?_, ?_, ?_, ?_⟩ <;> exact decodeTableWord_of_encode rfl rfl rfl

/-! ### The length of a frame -/

/-- The bytes of a group are its width, if the bitmap has its bit (R78). -/
theorem groupBytes_eq_mul (b : Byte) (k : Fin 7) : groupBytes b k = groupWidth k * (b.getLsbD k.val).toNat := by
  unfold groupBytes
  cases b.getLsbD k.val <;> simp

/-- The length formula (R78). -/
theorem need_eq (b : Byte) :
    need b = 2 + 2 * (b.getLsbD 0).toNat + 2 * (b.getLsbD 1).toNat + (b.getLsbD 2).toNat +
      4 * (b.getLsbD 3).toNat + 3 * (b.getLsbD 4).toNat + 2 * (b.getLsbD 5).toNat + 2 * (b.getLsbD 6).toNat := by
  simp [need, groupPos, bytesBelow, groupBytes_eq_mul, groupWidth]
  omega

/-- Settles O54: the widths of the groups the bitmap has, added up; bit 7 has no group. -/
theorem needIsTheLengthFormula : Obligations.NeedIsTheLengthFormula := by
  intro b
  refine ⟨need_eq b, Nat.le_add_right 2 _, groupPos_le 7 b, ?_⟩
  rw [need_eq, need_eq]
  simp

end Sys2Proof.Machine
end

section
/-! PROOFS. The adapters inside the field steps (42_scaled_adapters.md R140): every adapter is a read at the cursor, and
what it answers on its own, with its value in the latch (log 9), is what a field step goes on with. -/

namespace Sys2Proof.Machine

/-! ### Reads of a fixed width -/

/-- The operation `op` reads `n` bytes at the cursor and computes its value from them (R100, R140). -/
def Reader {α : Type} (n : Nat) (op : State → OpResult α) : Prop :=
  ∃ f : Memory → Nat → Option α, ∀ s, op s = readAt n f s

/-- A read followed by a conversion is a read that computes the converted value. -/
theorem readAt_map {α β : Type} (n : Nat) (f : Memory → Nat → Option α) (g : α → β) (s : State) :
    (readAt n f s).map g = readAt n (fun m a => (f m a).map g) s := by
  rcases readAt_cases n f s with ⟨v, hlen, hv, hr⟩ | ⟨hshort, hr⟩ | ⟨hlen, hv, hr⟩
  · rw [hr, readAt_ok hlen (by rw [hv, Option.map_some]), OpResult.map_ok]
  · rw [hr, readAt_raised hshort, OpResult.map_raised]
  · rw [hr, readAt, if_pos hlen, hv, OpResult.map_stuck, Option.map_none]

/-- A conversion of the value is part of what is computed from the bytes. -/
theorem Reader.map {α β : Type} {n : Nat} {op : State → OpResult α} (h : Reader n op) (g : α → β) :
    Reader n fun s => (op s).map g := by
  obtain ⟨f, hf⟩ := h
  exact ⟨fun m a => (f m a).map g, fun s => (congrArg (OpResult.map g) (hf s)).trans (readAt_map n f g s)⟩

theorem reader_readU16 : Reader 2 readU16 := ⟨memRead2, fun _ => rfl⟩

theorem reader_readVolt : Reader 2 readVolt := (reader_readU16.map signed16).map voltage

theorem reader_readTemp : Reader 2 readTemp := (reader_readU16.map signed16).map temperature

theorem reader_readRh : Reader 2 readRh := reader_readU16.map humidity

theorem reader_readLux : Reader 3 readLux := Reader.map ⟨memRead3, fun _ => rfl⟩ cfDecode

theorem reader_readBoot : Reader 1 readBoot := ⟨memRead1, fun _ => rfl⟩

section
variable {α : Type} {n : Nat} {op : State → OpResult α} {tag : α → RetVal} {s t : State} {v : α}

/-- With too few bytes an operation takes the exception, whatever was to follow (R213). -/
theorem Reader.finish_of_short (h : Reader n op) (hlen : s.len < s.off + n)
    (k : α → State → Host.Outcome State Fault Refusal) : (op s).finish k = .next s.takeOutOfBounds := by
  obtain ⟨f, hf⟩ := h
  rw [hf, readAt_raised hlen, OpResult.finish_raised]

/-- With too few bytes the step that runs an operation does what the operation does on its own (R213). -/
theorem Reader.finish_eq_hold_of_short (h : Reader n op) (hlen : s.len < s.off + n)
    (k : α → State → Host.Outcome State Fault Refusal) (tag : α → RetVal) : (op s).finish k = (op s).hold tag := by
  rw [h.finish_of_short hlen, OpResult.hold, h.finish_of_short hlen]

/-- An operation that had its bytes and was performed on its own moved the cursor and left its value in the latch; it
answers that value whatever the latch held. -/
theorem Reader.of_hold (h : Reader n op) (hlen : s.off + n ≤ s.len) (hexec : (op s).hold tag = .next t) :
    ∃ v, t = (s.setOff (s.off + n)).setRet (tag v) ∧
      ∀ r, op { s with ret := r } = .ok v { s with off := s.off + n, ret := r } := by
  obtain ⟨f, hf⟩ := h
  rw [hf] at hexec
  rcases readAt_finish hexec with ⟨v, -, hv, ht⟩ | ⟨hshort, -⟩
  · exact ⟨v, next_injective ht, fun r => (hf _).trans (readAt_ok (s := { s with ret := r }) hlen hv)⟩
  · omega

/-- The value left in the latch is the one the operation answers, with the cursor where it was left. -/
theorem Reader.ok_of_hold (h : Reader n op) (htag : Function.Injective tag) (hlen : s.off + n ≤ s.len)
    (hexec : (op s).hold tag = .next t) (hret : t.ret = some (tag v)) (r : Option RetVal) :
    op { s with ret := r } = .ok v { t with ret := r } := by
  obtain ⟨w, rfl, hop⟩ := h.of_hold hlen hexec
  obtain rfl : w = v := htag (Option.some.inj hret)
  exact hop r

/-- A step that runs an operation goes on with what the operation on its own left (R140). -/
theorem Reader.finish_of_hold (h : Reader n op) (htag : Function.Injective tag) (hlen : s.off + n ≤ s.len)
    (hexec : (op s).hold tag = .next t) (hret : t.ret = some (tag v))
    (k : α → State → Host.Outcome State Fault Refusal) : (op s).finish k = k v { t with ret := s.ret } :=
  congrArg (OpResult.finish · k) (h.ok_of_hold htag hlen hexec hret s.ret)

end

theorem fval_injective : Function.Injective RetVal.fval := fun _ _ => RetVal.fval.inj

theorem u8_injective : Function.Injective RetVal.u8 := fun _ _ => RetVal.u8.inj

/-! ### The field steps -/

/-- FIELD3 is TEMP, then RH at the cursor TEMP left, then the writes (R169, R179). -/
theorem exec_field3_of_adapters {s t u : State} {v h : FVal} (hlen : s.off + 4 ≤ s.len)
    (htemp : exec .temp s = .next t) (hv : t.ret = some (.fval v)) (hrh : exec .rh t = .next u)
    (hh : u.ret = some (.fval h)) :
    exec .field3 s = .next (State.enterNext
      { u with ret := s.ret, record := climateRecord s.cfg.deriveAttached v h u.record } 4) := by
  have ht : t.off = s.off + 2 ∧ t.len = s.len ∧ t.cfg = s.cfg := by
    obtain ⟨_, rfl, -⟩ := reader_readTemp.of_hold (by omega) htemp
    exact ⟨rfl, rfl, rfl⟩
  obtain ⟨hoff, htlen, htcfg⟩ := ht
  have hcfg : u.cfg = s.cfg := by
    obtain ⟨_, rfl, -⟩ := reader_readRh.of_hold (by omega) hrh
    exact htcfg
  have hread : readRh { t with ret := s.ret } = .ok h { u with ret := s.ret } :=
    reader_readRh.ok_of_hold fval_injective (by omega) hrh hh s.ret
  calc exec .field3 s
      = (readRh { t with ret := s.ret }).finish fun h u =>
          .next ((u.setRecord (writeClimate u.cfg.deriveAttached v h u.record)).enterNext 4) :=
        reader_readTemp.finish_of_hold fval_injective (by omega) htemp hv _
    _ = _ := by rw [hread, OpResult.finish_ok, writeClimate_eq, hcfg]; rfl

/-- When the humidity is missing, FIELD3 does what RH does behind the temperature (R169, R213). -/
theorem exec_field3_of_humidity_short {s t : State} (hlen : s.off + 2 ≤ s.len) (hshort : s.len < s.off + 4)
    (htemp : exec .temp s = .next t) : exec .field3 s = exec .rh { t with ret := s.ret } := by
  obtain ⟨v, rfl, hread⟩ := reader_readTemp.of_hold hlen htemp
  have hok : readTemp s = .ok v (s.setOff (s.off + 2)) := hread s.ret
  rw [exec, execField3, hok, OpResult.finish_ok]
  exact reader_readRh.finish_eq_hold_of_short hshort _ _

/-- Settles O31: every adapter is a read at the cursor, so its field step goes on with what it left, or both take the
exception. -/
theorem fieldStepsRunTheirAdapters : Obligations.FieldStepsRunTheirAdapters := by
  refine ⟨?volt, ?boot, ?climate, ?lux, ?temp, ?bootShort, ?twoBytesShort, ?humidityShort, ?luxShort⟩
  case volt =>
    intro s t v hlen hexec hret
    exact ⟨reader_readVolt.finish_of_hold fval_injective hlen hexec hret _,
      reader_readVolt.finish_of_hold fval_injective hlen hexec hret _⟩
  case boot =>
    intro s t v hlen hexec hret
    exact reader_readBoot.finish_of_hold u8_injective hlen hexec hret _
  case climate => exact fun s t u v h => exec_field3_of_adapters
  case lux =>
    intro s t v hlen hexec hret
    exact reader_readLux.finish_of_hold fval_injective hlen hexec hret _
  case temp =>
    intro s t v hlen hexec hret
    exact ⟨reader_readTemp.finish_of_hold fval_injective hlen hexec hret _,
      reader_readTemp.finish_of_hold fval_injective hlen hexec hret _⟩
  case bootShort => exact fun s hs => reader_readBoot.finish_eq_hold_of_short hs _ _
  case twoBytesShort =>
    intro s hs
    have hvolt := reader_readVolt.finish_eq_hold_of_short hs
    have htemp := reader_readTemp.finish_eq_hold_of_short hs
    exact ⟨hvolt _ _, hvolt _ _, htemp _ _, htemp _ _, htemp _ _⟩
  case humidityShort => exact fun s t => exec_field3_of_humidity_short
  case luxShort => exact fun s hs => reader_readLux.finish_eq_hold_of_short hs _ _

end Sys2Proof.Machine
end

section
/-! PROOFS. The primitive field readers (40_primitive_readers.md): the value a reader returns, the abort that too few
bytes cause, and the micro-operations that are a reader followed by a conversion (R103, R140). -/

namespace Sys2Proof.Machine

/-! ### The signed reinterpretation -/

/-- `sext_16` is the two's complement value of a bit vector (R74, R103). -/
theorem signed16_eq_toInt (u : Half) : signed16 u = u.toInt :=
  (BitVec.toInt_eq_msb_cond u).symm

/-- The signed and the unsigned reading of a field agree modulo 65536 (R105). -/
theorem signed16_emod (u : Half) : signed16 u % 65536 = (u.toNat : Int) % 65536 := by
  rw [signed16_eq_toInt, BitVec.toInt_eq_toNat_bmod]
  exact Int.bmod_emod

/-- Settles O55: the signed reading is the two's complement value of the field, which is a bijection onto its range. -/
theorem signedReadIsTheTwosComplementBijection : Obligations.SignedReadIsTheTwosComplementBijection := by
  refine ⟨fun u => ⟨?_, ?_, ?_⟩, fun u v h => ?_, fun i hlow hhigh => ⟨BitVec.ofInt 16 i, ?_⟩⟩
  · rw [signed16_eq_toInt]; exact BitVec.le_toInt u
  · rw [signed16_eq_toInt]; exact Int.le_of_lt_add_one (BitVec.toInt_lt (x := u))
  · exact Int.emod_eq_emod_iff_emod_sub_eq_zero.mp (signed16_emod u)
  · rw [signed16_eq_toInt, signed16_eq_toInt] at h
    exact BitVec.eq_of_toInt_eq h
  · rw [signed16_eq_toInt]
    exact BitVec.toInt_ofInt_eq_self (by decide) hlow (Int.lt_add_one_of_le hhigh)

/-! ### The readers as reads of a fixed width -/

theorem reader_readU8 : Reader 1 readU8 := ⟨memRead1, fun _ => rfl⟩

theorem reader_readI16 : Reader 2 readI16 := reader_readU16.map signed16

theorem reader_readU24 : Reader 3 readU24 := ⟨memRead3, fun _ => rfl⟩

theorem u16_injective : Function.Injective RetVal.u16 := fun _ _ => RetVal.u16.inj

theorem i16_injective : Function.Injective RetVal.i16 := fun _ _ => RetVal.i16.inj

theorem u24_injective : Function.Injective RetVal.u24 := fun _ _ => RetVal.u24.inj

/-- A conversion before the value is held is part of how the value is held. -/
theorem OpResult.hold_map {α β : Type} (r : OpResult α) (g : α → β) (tag : β → RetVal) :
    (r.map g).hold tag = r.hold fun v => tag (g v) := by
  cases r <;> rfl

section
variable {α β : Type} {n : Nat} {op : State → OpResult α} {tag : α → RetVal} {s t : State} {v : α}

/-- With too few bytes an operation on its own takes the exception, whatever it was to return (R100, R213). -/
theorem Reader.hold_of_short (h : Reader n op) (hlen : s.len < s.off + n) (tag : α → RetVal) :
    (op s).hold tag = .next s.takeOutOfBounds :=
  h.finish_of_short hlen _

/-- With too few bytes an operation on its own leaves what OutOfBounds leaves (R100, R213, R214). -/
theorem Reader.hold_aborts_of_short (h : Reader n op) (hlen : s.len < s.off + n) (tag : α → RetVal) :
    ∃ t, (op s).hold tag = .next t ∧ AbortedFrom s t :=
  ⟨s.takeOutOfBounds, h.hold_of_short hlen tag, takeOutOfBounds_abortedFrom s⟩

/-- A reader followed by a conversion leaves what the reader left, with its value converted (R103, R140). -/
theorem Reader.hold_map_of_hold (h : Reader n op) (htag : Function.Injective tag) (hlen : s.off + n ≤ s.len)
    (hexec : (op s).hold tag = .next t) (hret : t.ret = some (tag v)) (g : α → β) (tag' : β → RetVal) :
    ((op s).map g).hold tag' = .next { t with ret := some (tag' (g v)) } :=
  ((op s).hold_map g tag').trans (h.finish_of_hold htag hlen hexec hret _)

end

/-! ### RDU8, RDU16, RDI16, RDU24 -/

theorem exec_rdu8_of_byte {s : State} {b0 : Byte} (hlen : s.off + 1 ≤ s.len)
    (h0 : Memory.byteAt s.mem s.off = some b0) :
    exec .rdu8 s = .next { s with off := s.off + 1, ret := some (.u8 b0) } :=
  congrArg (OpResult.hold .u8) (readU8_ok hlen h0)

theorem exec_rdu16_of_bytes {s : State} {b0 b1 : Byte} (hlen : s.off + 2 ≤ s.len)
    (h0 : Memory.byteAt s.mem s.off = some b0) (h1 : Memory.byteAt s.mem (s.off + 1) = some b1) :
    exec .rdu16 s = .next { s with off := s.off + 2, ret := some (.u16 (b0 ++ b1)) } :=
  congrArg (OpResult.hold .u16) (readU16_ok hlen h0 h1)

/-- RDI16 is RDU16 with its value read as a signed one (R103). -/
theorem exec_rdi16_of_rdu16 {s t : State} {u : Half} (hlen : s.off + 2 ≤ s.len) (hexec : exec .rdu16 s = .next t)
    (hret : t.ret = some (.u16 u)) : exec .rdi16 s = .next { t with ret := some (.i16 (signed16 u)) } :=
  reader_readU16.hold_map_of_hold u16_injective hlen hexec hret signed16 _

theorem exec_rdu24_of_bytes {s : State} {b0 b1 b2 : Byte} (hlen : s.off + 3 ≤ s.len)
    (h0 : Memory.byteAt s.mem s.off = some b0) (h1 : Memory.byteAt s.mem (s.off + 1) = some b1)
    (h2 : Memory.byteAt s.mem (s.off + 2) = some b2) :
    exec .rdu24 s = .next { s with off := s.off + 3, ret := some (.u24 (b0 ++ b1 ++ b2)) } :=
  congrArg (OpResult.hold .u24) (readU24_ok hlen h0 h1 h2)

/-- Settles O7: the read has its byte, or the exception is taken. -/
theorem byteReaderReturnsTheByte : Obligations.ByteReaderReturnsTheByte :=
  ⟨fun _ _ => exec_rdu8_of_byte, fun _ hshort => reader_readU8.hold_aborts_of_short hshort _⟩

/-- Settles O8: the value read is the join of the bytes, whose number, unsigned or signed, is the big-endian one. -/
theorem wideReadersReturnTheField : Obligations.WideReadersReturnTheField := by
  refine ⟨?twoBytes, ?threeBytes, ?twoBytesShort, ?threeBytesShort⟩
  case twoBytes =>
    intro s b0 b1 hlen h0 h1
    have hrdu16 := exec_rdu16_of_bytes hlen h0 h1
    exact ⟨⟨b0 ++ b1, hrdu16, toNat_append_bytes2 b0 b1⟩,
      ⟨signed16 (b0 ++ b1), exec_rdi16_of_rdu16 hlen hrdu16 rfl, signed16_append b0 b1⟩⟩
  case threeBytes =>
    intro s b0 b1 b2 hlen h0 h1 h2
    exact ⟨b0 ++ b1 ++ b2, exec_rdu24_of_bytes hlen h0 h1 h2, toNat_append_bytes3 b0 b1 b2⟩
  case twoBytesShort =>
    exact fun s hshort =>
      ⟨reader_readU16.hold_aborts_of_short hshort _, reader_readI16.hold_aborts_of_short hshort _⟩
  case threeBytesShort => exact fun s hshort => reader_readU24.hold_aborts_of_short hshort _

/-! ### The micro-operations over the readers -/

/-- Settles O30: with its bytes a micro-operation converts what its reader left, or, for BMLOAD, goes on with it; with
too few bytes both take the exception. -/
theorem microOperationsRunTheirReaders : Obligations.MicroOperationsRunTheirReaders := by
  refine ⟨?rdu16, ?rdi16, ?lux, ?boot, ?bmload, ?bmloadShort, ?twoBytesShort, ?luxShort⟩
  case rdu16 =>
    intro s t u hlen hexec hret
    exact ⟨exec_rdi16_of_rdu16 hlen hexec hret,
      reader_readU16.hold_map_of_hold u16_injective hlen hexec hret humidity _⟩
  case rdi16 =>
    intro s t i hlen hexec hret
    exact ⟨reader_readI16.hold_map_of_hold i16_injective hlen hexec hret voltage _,
      reader_readI16.hold_map_of_hold i16_injective hlen hexec hret temperature _⟩
  case lux =>
    intro s t w hlen hexec hret
    exact reader_readU24.hold_map_of_hold u24_injective hlen hexec hret cfDecode _
  case boot => exact fun s => rfl
  case bmload =>
    intro s t b hlen hexec hret
    exact reader_readU8.finish_of_hold u8_injective hlen hexec hret _
  case bmloadShort => exact fun s hshort => reader_readU8.finish_eq_hold_of_short hshort _ _
  case twoBytesShort =>
    intro s hshort
    have hrdu16 : exec .rdu16 s = .next s.takeOutOfBounds := reader_readU16.hold_of_short hshort _
    have hrdi16 : exec .rdi16 s = .next s.takeOutOfBounds := reader_readI16.hold_of_short hshort _
    rw [hrdu16, hrdi16]
    exact ⟨rfl, reader_readRh.hold_of_short hshort _, reader_readVolt.hold_of_short hshort _,
      reader_readTemp.hold_of_short hshort _⟩
  case luxShort =>
    intro s hshort
    exact (reader_readLux.hold_of_short hshort _).trans (reader_readU24.hold_of_short hshort _).symm

end Sys2Proof.Machine
end

section
/-! PROOFS. The values that `OUT_FMT` holds exactly (R129): an integer of at most 53 bits times a power of two is left
by `RoundOut`, and its binary64 image is read off its leading bit (R130). -/

namespace Sys2Proof.Machine

/-- The leading bit of an integer times a power of two. -/
theorem log_natCast_mul_zpow {m : Nat} (hm : m ≠ 0) (k : Int) :
    Int.log 2 ((m : Rat) * (2 : Rat) ^ k) = m.log2 + k := by
  have hpos : (0 : Rat) < m * (2 : Rat) ^ k := by positivity
  have hlow : (2 : Rat) ^ m.log2 ≤ m := mod_cast Nat.log2_self_le hm
  have hhigh : (m : Rat) < (2 : Rat) ^ (m.log2 + 1) := mod_cast Nat.lt_log2_self
  have hscale (n : Nat) : (2 : Rat) ^ ((n : Int) + k) = 2 ^ n * 2 ^ k := by
    rw [zpow_add₀ two_ne_zero, zpow_natCast]
  refine le_antisymm (Int.lt_add_one_iff.1 ?_) ?_
  · rw [add_right_comm, ← Int.lt_zpow_iff_log_lt one_lt_two hpos]
    calc (m : Rat) * 2 ^ k < 2 ^ (m.log2 + 1) * 2 ^ k := by gcongr
      _ = (2 : Nat) ^ ((m.log2 : Int) + 1 + k) := (hscale (m.log2 + 1)).symm
  · rw [← Int.zpow_le_iff_le_log one_lt_two hpos]
    calc ((2 : Nat) : Rat) ^ ((m.log2 : Int) + k) = 2 ^ m.log2 * 2 ^ k := hscale m.log2
      _ ≤ m * 2 ^ k := by gcongr

/-- The binade of an integer times a power of two, in the normal range. -/
theorem binadeExp_natCast_mul_zpow {m : Nat} {k : Int} (hm : m ≠ 0) (hmin : -1022 ≤ m.log2 + k) :
    binadeExp ((m : Rat) * (2 : Rat) ^ k) = m.log2 + k := by
  rw [binadeExp, log_natCast_mul_zpow hm]
  exact max_eq_left hmin

/-- The place of an integer of at most 53 bits is not below that of one unit in the last place (R129). -/
theorem binadeExp_sub_le {m : Nat} {k : Int} (hm : m ≠ 0) (hlt : m < 2 ^ 53) (hk : -1074 ≤ k) :
    binadeExp ((m : Rat) * (2 : Rat) ^ k) - 52 ≤ k := by
  have hlog : m.log2 < 53 := (Nat.log2_lt hm).2 hlt
  have hmin : Config.outMinExp = -1022 := rfl
  rw [binadeExp, log_natCast_mul_zpow hm]
  omega

/-- An integer times a power of two is a whole number of units in the last place, if its own place is not below. -/
theorem natCast_mul_zpow_div_ulp {m : Nat} {k : Int} (h : binadeExp ((m : Rat) * (2 : Rat) ^ k) - 52 ≤ k) :
    (m : Rat) * (2 : Rat) ^ k / ulp ((m : Rat) * (2 : Rat) ^ k) =
      (m * 2 ^ (k - (binadeExp ((m : Rat) * (2 : Rat) ^ k) - 52)).toNat : Nat) := by
  rw [ulp_eq_zpow, mul_div_assoc, ← zpow_sub₀ two_ne_zero]
  generalize binadeExp _ = e at h ⊢
  obtain ⟨n, hn⟩ := Int.eq_ofNat_of_zero_le (Int.sub_nonneg_of_le h)
  rw [hn]
  simp

/-- `RoundOut` leaves an integer of at most 53 bits times a power of two that is not below the format (R129). -/
theorem roundOut_natCast_mul_zpow {m : Nat} {k : Int} (hlt : m < 2 ^ 53) (hk : -1074 ≤ k) :
    roundOut ((m : Rat) * (2 : Rat) ^ k) = m * (2 : Rat) ^ k := by
  rcases eq_or_ne m 0 with rfl | hm
  · simp [roundOut]
  have hunits := natCast_mul_zpow_div_ulp (binadeExp_sub_le hm hlt hk)
  rw [roundOut_eq, hunits, ← Int.cast_natCast, roundHalfEven_intCast, Int.cast_natCast, ← hunits,
    div_mul_cancel₀ _ (ulp_pos _).ne']

/-- The leading bit of an integer, moved up to bit 52, is the bit above the fraction field (R130). -/
theorem two_pow_log2_mul {m : Nat} (hlog : m.log2 < 53) : 2 ^ m.log2 * 2 ^ (52 - m.log2) = 2 ^ 52 := by
  rw [← pow_add, Nat.add_sub_cancel' (by omega)]

/-- The bits below the leading bit of an integer, moved up to the fraction field, fill less than that field (R130). -/
theorem fraction_lt {m : Nat} (hlog : m.log2 < 53) : (m - 2 ^ m.log2) * 2 ^ (52 - m.log2) < 2 ^ 52 := by
  have hbelow : m - 2 ^ m.log2 < 2 ^ m.log2 := by
    have := Nat.lt_log2_self (n := m)
    rw [pow_succ] at this
    omega
  calc (m - 2 ^ m.log2) * 2 ^ (52 - m.log2) < 2 ^ m.log2 * 2 ^ (52 - m.log2) := by gcongr
    _ = 2 ^ 52 := two_pow_log2_mul hlog

/-- The image of zero has no bit but its sign (R130). -/
theorem imageMagnitude_zero : imageMagnitude 0 = 0 := by
  have hfloor : Rat.floor 0 = 0 := rfl
  simp [imageMagnitude, binadeExp, hfloor, Config.outMinExp, Config.outMaxExp]

/-- The image of an integer times a power of two, in the normal range: the exponent of the leading bit, biased, and
below it the other bits (R130). -/
theorem imageMagnitude_natCast_mul_zpow {m : Nat} {k : Int} (hm : m ≠ 0) (hlt : m < 2 ^ 53)
    (hmin : -1022 ≤ m.log2 + k) (hmax : m.log2 + k ≤ 1023) :
    imageMagnitude ((m : Rat) * (2 : Rat) ^ k) =
      (m.log2 + k + 1023).toNat * 2 ^ 52 + (m - 2 ^ m.log2) * 2 ^ (52 - m.log2) := by
  have hlog : m.log2 < 53 := (Nat.log2_lt hm).2 hlt
  have hexp := binadeExp_natCast_mul_zpow hm hmin
  have hunits := natCast_mul_zpow_div_ulp (m := m) (k := k) (by omega)
  have hshift : (k - (m.log2 + k - 52)).toNat = 52 - m.log2 := by omega
  have hlead := two_pow_log2_mul hlog
  have hfull : 2 ^ 52 ≤ m * 2 ^ (52 - m.log2) :=
    hlead ▸ Nat.mul_le_mul_right _ (Nat.log2_self_le hm)
  rw [hexp, hshift] at hunits
  rw [imageMagnitude, hexp, hunits, ← Int.cast_natCast (R := Rat), Rat.floor_intCast, Int.toNat_natCast,
    Nat.sub_mul, hlead, if_neg (show ¬ Config.outMaxExp < _ from hmax.not_gt), if_neg hfull.not_gt, Config.outMaxExp]

/-- A packed word as a number: the sign is bit 63 (R130). -/
theorem toNat_packImage (s : Bool) {rest : Nat} (h : rest < 2 ^ 63) :
    (packImage s rest).toNat = s.toNat * 2 ^ 63 + rest := by
  rw [packImage, BitVec.toNat_append, BitVec.toNat_ofBool, BitVec.toNat_ofNat, Nat.mod_eq_of_lt h,
    ← Nat.shiftLeft_add_eq_or_of_lt h, Nat.shiftLeft_eq]

end Sys2Proof.Machine
end

section
/-! PROOFS. The compact float decoder (41_compact_float.md): the class rows and CFDEC complete, and the finite words
are sign, integer and power of two, from which their order, their exactness and their images follow. -/

namespace Sys2Proof.Machine

/-! ### CFDEC and its class rows as instructions -/

/-- Settles O15: CFDEC holds the decoded value, which is the one of the class table. -/
theorem compactFloatDecoderGivesTheClassValue : Obligations.CompactFloatDecoderGivesTheClassValue :=
  fun w s => congrArg (fun v => Host.Outcome.next (s.setRet (.fval v))) (cfDecode_eq_cfValue w)

/-- The value of a normal word as a fraction from 1 up, scaled (R123, R125). -/
theorem cfNormal_eq (sgn : Bool) (e : BitVec 7) (m : Half) :
    cfNormal sgn e m = .finite sgn ((1 + (m.toNat : Rat) / 65536) * (2 : Rat) ^ ((e.toNat : Int) - 63)) := by
  rw [cfNormal, cfScale, Config.expBias]
  push_cast
  congr 2
  ring

/-- The value of a denormal word: its mantissa in units of `2^-78` (R124, R125). -/
theorem cfDenormal_eq (sgn : Bool) (m : Half) :
    cfDenormal sgn m = .finite sgn ((m.toNat : Rat) * (2 : Rat) ^ (-78 : Int)) := by
  rw [cfDenormal, cfScale_eq]
  rfl

/-- Settles O16: each row holds its value; for the two finite classes the scaling of step 5 is computed. -/
theorem compactFloatClassRowsComplete : Obligations.CompactFloatClassRowsComplete := by
  refine ⟨fun _ _ => rfl, fun _ _ _ => rfl, fun sgn e m s => ?_, fun sgn m s => ?_⟩
  · rw [← cfNormal_eq]; rfl
  · rw [← cfDenormal_eq]; rfl

/-! ### The finite words -/

/-- The integer `M` of a finite word: the mantissa, with the leading one of a normal word (R123, R124). -/
def cfSignificand (w : Nat) : Nat := if cfE w = 0 then cfM w else 65536 + cfM w

/-- The power of two that one unit of `M` stands for; a denormal has that of exponent 1 (R124, R125). -/
def cfPlace (w : Nat) : Int := if cfE w = 0 then -78 else (cfE w : Int) - 79

/-- The magnitude of a finite word (R125). -/
def cfMagnitude (w : Nat) : Rat := cfSignificand w * (2 : Rat) ^ cfPlace w

/-- The finite words are those below the highest exponent; their value is their sign with their magnitude (R123 to
R126). -/
theorem cfDecode_eq_finite_iff (w : Word24) (sgn : Bool) (q : Rat) :
    cfDecode w = .finite sgn q ↔ cfE w.toNat ≠ 127 ∧ cfSign w = sgn ∧ cfMagnitude w.toNat = q := by
  rw [cfDecode_eq_cfValue, cfValue, cfSign_eq, cfMagnitude, cfSignificand, cfPlace]
  split_ifs with htop <;> simp [htop]

theorem cfExp_ne_top_iff (w : Word24) : cfExp w ≠ 0x7F ↔ cfE w.toNat ≠ 127 := by
  rw [← cfExp_toNat, Ne, ← BitVec.toNat_inj]
  rfl

theorem cfSignificand_lt (w : Nat) : cfSignificand w < 2 ^ 17 := by
  unfold cfSignificand cfM
  split_ifs <;> omega

theorem le_cfPlace (w : Nat) : -78 ≤ cfPlace w := by
  unfold cfPlace
  split_ifs <;> omega

theorem cfPlace_le {w : Nat} (h : cfE w ≠ 127) : cfPlace w ≤ 47 := by
  unfold cfPlace cfE at *
  split_ifs <;> omega

/-! ### Order and distinctness -/

/-- Inside a binade the next word has the next integer at the same place (R128). -/
theorem cfMagnitude_succ_of_mant {w : Nat} (h : cfM w < 65535) :
    cfMagnitude (w + 1) = (cfSignificand w + 1 : Nat) * (2 : Rat) ^ cfPlace w := by
  have hexp : cfE (w + 1) = cfE w := by unfold cfE cfM at *; omega
  have hmant : cfM (w + 1) = cfM w + 1 := by unfold cfM at *; omega
  unfold cfMagnitude cfSignificand cfPlace
  rw [hexp, hmant]
  split_ifs <;> rfl

/-- At the end of a binade the next word has exponent `e + 1` and mantissa 0; its value is that of the integer after the
largest one at the old place, for the last denormal too, whose place is that of exponent 1 (R124, R128). -/
theorem cfMagnitude_succ_of_last {w : Nat} (h : cfM w = 65535) (hlt : w + 1 < 2 ^ 23) :
    cfMagnitude (w + 1) = (cfSignificand w + 1 : Nat) * (2 : Rat) ^ cfPlace w := by
  have hexp : cfE (w + 1) = cfE w + 1 := by unfold cfE cfM at *; omega
  have hmant : cfM (w + 1) = 0 := by unfold cfM at *; omega
  unfold cfMagnitude cfSignificand cfPlace
  rw [hexp, hmant, h, if_neg (Nat.succ_ne_zero _), if_neg (Nat.succ_ne_zero _)]
  split_ifs with hden
  · rw [hden]; rfl
  · rw [show ((cfE w + 1 : Nat) : Int) - 79 = (cfE w - 79 : Int) + 1 by push_cast; ring, zpow_add_one₀ two_ne_zero]
    push_cast
    ring

/-- The next word is larger by one unit of the word before it: the spacing has no gap (R128). -/
theorem cfMagnitude_succ {w : Nat} (hlt : w + 1 < 2 ^ 23) :
    cfMagnitude (w + 1) = (cfSignificand w + 1 : Nat) * (2 : Rat) ^ cfPlace w := by
  rcases (show cfM w < 65535 ∨ cfM w = 65535 by unfold cfM; omega) with hmant | hlast
  · exact cfMagnitude_succ_of_mant hmant
  · exact cfMagnitude_succ_of_last hlast hlt

/-- The magnitude increases with the word, below the sign bit (R128). -/
theorem cfMagnitude_strictMonoOn : StrictMonoOn cfMagnitude (Set.Iio (2 ^ 23)) := by
  refine strictMonoOn_of_lt_add_one Set.ordConnected_Iio fun w _ _ hlt => ?_
  rw [cfMagnitude_succ hlt, cfMagnitude]
  gcongr
  exact Nat.lt_succ_self _

/-- The sign bit has no part in the magnitude (R126). -/
theorem cfMagnitude_mod (w : Nat) : cfMagnitude (w % 2 ^ 23) = cfMagnitude w := by
  have hexp : cfE (w % 2 ^ 23) = cfE w := by unfold cfE; omega
  have hmant : cfM (w % 2 ^ 23) = cfM w := by unfold cfM; omega
  rw [cfMagnitude, cfSignificand, cfPlace, hexp, hmant]
  rfl

/-- A word is its sign and its 23 lower bits (R75). -/
theorem eq_of_cfSign_eq_of_low_eq {v w : Word24} (hsign : cfSign v = cfSign w)
    (hlow : v.toNat % 2 ^ 23 = w.toNat % 2 ^ 23) : v = w := by
  have hv := cfS_lt v
  have hw := cfS_lt w
  rw [cfSign_eq, cfSign_eq, decide_eq_decide] at hsign
  refine BitVec.eq_of_toNat_eq ?_
  unfold cfS at *
  omega

/-- Settles O17: the magnitude is strictly increasing in the 23 lower bits, so with the sign it determines the word. -/
theorem compactFloatOrderAndDistinctness : Obligations.CompactFloatOrderAndDistinctness := by
  constructor
  · intro v w p q hlt hmax hp hq
    obtain ⟨-, -, rfl⟩ := (cfDecode_eq_finite_iff ..).1 hp
    obtain ⟨-, -, rfl⟩ := (cfDecode_eq_finite_iff ..).1 hq
    rw [BitVec.toNat_ofNat, BitVec.toNat_ofNat, Nat.mod_eq_of_lt (by omega), Nat.mod_eq_of_lt (by omega)]
    exact cfMagnitude_strictMonoOn (show v < 2 ^ 23 by omega) (show w < 2 ^ 23 by omega) hlt
  · intro v w hv hw heq
    have hvalue := (cfDecode_eq_finite_iff v _ _).2 ⟨(cfExp_ne_top_iff v).1 hv, rfl, rfl⟩
    obtain ⟨-, hsign, hmag⟩ := (cfDecode_eq_finite_iff w _ _).1 (heq ▸ hvalue)
    rw [← cfMagnitude_mod, ← cfMagnitude_mod v.toNat] at hmag
    have hlow := cfMagnitude_strictMonoOn.injOn (Nat.mod_lt _ (by norm_num)) (Nat.mod_lt _ (by norm_num)) hmag
    exact eq_of_cfSign_eq_of_low_eq hsign.symm hlow.symm

/-! ### Exactness and the binary64 image -/

/-- A finite word has an exact value in `OUT_FMT` (R129). -/
theorem roundOut_cfMagnitude (w : Nat) : roundOut (cfMagnitude w) = cfMagnitude w := by
  have hsig := cfSignificand_lt w
  have hplace := le_cfPlace w
  exact roundOut_natCast_mul_zpow (by omega) (by omega)

/-- Settles O18: the integer and the place of the word are the ones asked for. -/
theorem compactFloatNeedsNoRounding : Obligations.CompactFloatNeedsNoRounding := by
  intro w sgn q h
  obtain ⟨hfin, -, rfl⟩ := (cfDecode_eq_finite_iff ..).1 h
  exact ⟨⟨cfSignificand w.toNat, cfPlace w.toNat, cfSignificand_lt _, le_cfPlace _, cfPlace_le hfin, rfl⟩,
    roundOut_cfMagnitude _⟩

theorem cfSign_toNat (w : Word24) : (cfSign w).toNat = cfS w.toNat := by
  have hs := cfS_lt w
  rw [cfSign_eq]
  interval_cases cfS w.toNat <;> rfl

/-- The magnitude part of the image of a nonzero finite word, from the leading bit of its integer (R130). -/
theorem imageMagnitude_cfMagnitude {w : Nat} (hfin : cfE w ≠ 127) (hsig : cfSignificand w ≠ 0) :
    imageMagnitude (cfMagnitude w) = ((cfSignificand w).log2 + cfPlace w + 1023).toNat * 2 ^ 52 +
      (cfSignificand w - 2 ^ (cfSignificand w).log2) * 2 ^ (52 - (cfSignificand w).log2) := by
  have hlt := cfSignificand_lt w
  have hlog := (Nat.log2_lt hsig).2 hlt
  have hlow := le_cfPlace w
  have hhigh := cfPlace_le hfin
  exact imageMagnitude_natCast_mul_zpow hsig (by omega) (by omega) (by omega)

/-- The exponent and fraction of a finite word's image leave the sign bit free (R130). -/
theorem imageMagnitude_cfMagnitude_lt {w : Nat} (hfin : cfE w ≠ 127) (hsig : cfSignificand w ≠ 0) :
    imageMagnitude (cfMagnitude w) < 2 ^ 63 := by
  have hlog := (Nat.log2_lt hsig).2 (cfSignificand_lt w)
  have hhigh := cfPlace_le hfin
  have hfraction := fraction_lt (m := cfSignificand w) (by omega)
  have hexp : ((cfSignificand w).log2 + cfPlace w + 1023).toNat ≤ 1086 := by omega
  rw [imageMagnitude_cfMagnitude hfin hsig]
  omega

/-- The leading bit of a normal word's integer is the one the decoder supplies (R123). -/
theorem log2_normal (w : Nat) : (65536 + cfM w).log2 = 16 := by
  have hmant : cfM w < 65536 := Nat.mod_lt _ (by norm_num)
  exact (Nat.log2_eq_iff (by omega)).2 ⟨by omega, by omega⟩

/-- The rows of the image table for a nonzero finite word, normal and denormal, as one: the exponent of the leading bit
of its integer, biased, and below it the other bits (R130). -/
theorem cfImage_of_finite {w : Nat} (hfin : cfE w ≠ 127) (hsig : cfSignificand w ≠ 0) :
    cfImage w = cfS w * 2 ^ 63 + (((cfSignificand w).log2 + cfPlace w + 1023).toNat * 2 ^ 52 +
      (cfSignificand w - 2 ^ (cfSignificand w).log2) * 2 ^ (52 - (cfSignificand w).log2)) := by
  rw [cfImage, if_neg hfin, ← Nat.add_assoc]
  by_cases hden : cfE w = 0
  · rw [cfSignificand, if_pos hden] at hsig
    have hexp : (((cfM w).log2 : Int) + -78 + 1023).toNat = (cfM w).log2 + 945 := by omega
    rw [cfSignificand, cfPlace, if_pos hden, if_pos hden, if_pos hden, if_neg hsig, hexp]
  · have hexp : (((16 : Nat) : Int) + (cfE w - 79) + 1023).toNat = cfE w + 960 := by omega
    rw [cfSignificand, cfPlace, if_neg hden, if_neg hden, if_neg hden, log2_normal, hexp]
    simp

/-- The row of the image table for the two zeros (R130). -/
theorem cfImage_of_zero {w : Nat} (hsig : cfSignificand w = 0) : cfImage w = cfS w * 2 ^ 63 := by
  rw [cfSignificand] at hsig
  split_ifs at hsig with hden
  · rw [cfImage, hden, if_neg (by norm_num), if_pos rfl, if_pos hsig]
  · omega

/-- The image of a finite word is the one of the table (R130). -/
theorem image64_finite {w : Word24} (hfin : cfE w.toNat ≠ 127) :
    (image64 (.finite (cfSign w) (cfMagnitude w.toNat))).toNat = cfImage w.toNat := by
  rw [image64, roundOut_cfMagnitude]
  by_cases hsig : cfSignificand w.toNat = 0
  · have hzero : cfMagnitude w.toNat = 0 := by rw [cfMagnitude, hsig, Nat.cast_zero, zero_mul]
    rw [hzero, imageMagnitude_zero, toNat_packImage _ (by norm_num), cfSign_toNat, cfImage_of_zero hsig, add_zero]
  · rw [toNat_packImage _ (imageMagnitude_cfMagnitude_lt hfin hsig), cfSign_toNat, cfImage_of_finite hfin hsig,
      imageMagnitude_cfMagnitude hfin hsig]

/-- The image of an infinity or NaN word is the one of the table (R130). -/
theorem image64_special {w : Word24} (htop : cfE w.toNat = 127) :
    (image64 (cfDecode w)).toNat = cfImage w.toNat := by
  rw [cfDecode_eq_cfValue, cfValue, cfImage, if_pos htop, if_pos htop]
  split_ifs <;> rfl

/-- Settles O19: the finite words by the leading bit of their integer, the others by the class. -/
theorem compactFloatImageMatchesTheTable : Obligations.CompactFloatImageMatchesTheTable := by
  intro w
  by_cases htop : cfE w.toNat = 127
  · exact image64_special htop
  · rw [(cfDecode_eq_finite_iff w _ _).2 ⟨htop, rfl, rfl⟩]
    exact image64_finite htop

end Sys2Proof.Machine
end

section
/-! PROOFS. The scaled adapters (42_scaled_adapters.md): each completes with the value of its bytes or takes
OutOfBounds. Then their values: the fixed-point ones are exact in `OUT_FMT`, and the humidity inherits from `RoundOut`
that it is monotone and exact only where the quotient is an integer. -/

namespace Sys2Proof.Machine

/-! ### The adapters as instructions -/

/-- RDI16 and the division by a scale leave the fixed-point value of the two bytes (R141, R142). -/
theorem hold_fixedPoint_of_bytes (scale : Nat) {s : State} {b0 b1 : Byte} (hlen : s.off + 2 ≤ s.len)
    (h0 : Memory.byteAt s.mem s.off = some b0) (h1 : Memory.byteAt s.mem (s.off + 1) = some b1) :
    ((readI16 s).map (fixedPoint scale)).hold .fval =
      .next { s with off := s.off + 2, ret := some (.fval (fixedI16 scale b0 b1)) } := by
  have hrdi16 := exec_rdi16_of_rdu16 hlen (exec_rdu16_of_bytes hlen h0 h1) rfl
  rw [← fixedPoint_signed16_append]
  exact reader_readI16.hold_map_of_hold i16_injective hlen hrdi16 rfl (fixedPoint scale) .fval

theorem exec_rh_of_bytes {s : State} {b0 b1 : Byte} (hlen : s.off + 2 ≤ s.len)
    (h0 : Memory.byteAt s.mem s.off = some b0) (h1 : Memory.byteAt s.mem (s.off + 1) = some b1) :
    exec .rh s = .next { s with off := s.off + 2, ret := some (.fval (humidityU16 b0 b1)) } := by
  rw [← humidity_append]
  exact reader_readU16.hold_map_of_hold u16_injective hlen (exec_rdu16_of_bytes hlen h0 h1) rfl humidity .fval

theorem exec_lux_of_bytes {s : State} {b0 b1 b2 : Byte} (hlen : s.off + 3 ≤ s.len)
    (h0 : Memory.byteAt s.mem s.off = some b0) (h1 : Memory.byteAt s.mem (s.off + 1) = some b1)
    (h2 : Memory.byteAt s.mem (s.off + 2) = some b2) :
    exec .lux s = .next { s with
      off := s.off + 3
      ret := some (.fval (cfValue (b0.toNat * 65536 + b1.toNat * 256 + b2.toNat))) } := by
  rw [← toNat_append_bytes3, ← cfDecode_eq_cfValue]
  exact reader_readU24.hold_map_of_hold u24_injective hlen (exec_rdu24_of_bytes hlen h0 h1 h2) rfl cfDecode .fval

/-- Settles O11: RH converts what RDU16 left, or the exception is taken. -/
theorem humidityAdapterRoundsOnce : Obligations.HumidityAdapterRoundsOnce :=
  ⟨fun _ _ _ => exec_rh_of_bytes, fun _ hshort => reader_readRh.hold_aborts_of_short hshort _⟩

/-- Settles O10: LUX decodes what RDU24 left and BOOT is RDU8, or the exception is taken. -/
theorem luxAndBootAdaptersReturnTheField : Obligations.LuxAndBootAdaptersReturnTheField :=
  ⟨fun _ _ _ _ => exec_lux_of_bytes, fun _ hshort => reader_readLux.hold_aborts_of_short hshort _,
    fun _ _ => exec_rdu8_of_byte, fun _ hshort => reader_readBoot.hold_aborts_of_short hshort _⟩

/-! ### The fixed-point values -/

/-- An integer of at most 53 bits over a power of two within the format needs no rounding (R141, R142). -/
theorem roundOut_natCast_div_two_pow {m k : Nat} (hlt : m < 2 ^ 53) (hk : k ≤ 1074) :
    roundOut ((m : Rat) / (2 ^ k : Nat)) = (m : Rat) / (2 ^ k : Nat) := by
  have hplace : (m : Rat) / (2 ^ k : Nat) = m * (2 : Rat) ^ (-(k : Int)) := by
    rw [zpow_neg, zpow_natCast, div_eq_mul_inv, Nat.cast_pow, Nat.cast_ofNat]
  rw [hplace]
  exact roundOut_natCast_mul_zpow hlt (by omega)

/-- A signed field over a scale is the sign and magnitude of an integer from -32768 to 32767 over the scale; zero has
sign 0 (R103, R141, R142). -/
theorem fixedI16_eq_finite (scale : Nat) (b0 b1 : Byte) : ∃ (sgn : Bool) (m : Nat),
    fixedI16 scale b0 b1 = .finite sgn ((m : Rat) / scale) ∧
      (sgn = false ∧ m ≤ 32767 ∨ sgn = true ∧ 0 < m ∧ m ≤ 32768) := by
  have h0 := b0.isLt
  have h1 := b1.isLt
  rw [fixedI16]
  split_ifs with hlow
  · exact ⟨false, _, rfl, .inl ⟨rfl, by omega⟩⟩
  · exact ⟨true, _, rfl, .inr ⟨rfl, by omega, by omega⟩⟩

/-- A signed field over a power of two: its range, that it needs no rounding, and the sign of zero (R141, R142). -/
theorem fixedI16_two_pow {k : Nat} (hk : k ≤ 1074) (b0 b1 : Byte) : ∃ (sgn : Bool) (q : Rat),
    fixedI16 (2 ^ k) b0 b1 = .finite sgn q ∧ -(32768 / (2 ^ k : Nat)) ≤ signedValue sgn q ∧
      signedValue sgn q ≤ 32767 / (2 ^ k : Nat) ∧ roundOut q = q ∧ (q = 0 → sgn = false) := by
  obtain ⟨sgn, m, hvalue, hm⟩ := fixedI16_eq_finite (2 ^ k) b0 b1
  refine ⟨sgn, _, hvalue, ?_⟩
  have hscale : (0 : Rat) < (2 ^ k : Nat) := by positivity
  have hround := roundOut_natCast_div_two_pow (m := m) (by omega) hk
  rcases hm with ⟨rfl, hle⟩ | ⟨rfl, hpos, hle⟩
  · have hle : (m : Rat) ≤ 32767 := mod_cast hle
    have hlow : -(32768 / ((2 ^ k : Nat) : Rat)) ≤ 0 := neg_nonpos.2 (by positivity)
    have hnonneg : (0 : Rat) ≤ m / (2 ^ k : Nat) := by positivity
    exact ⟨hlow.trans hnonneg, div_le_div_of_nonneg_right hle hscale.le, hround, fun _ => rfl⟩
  · have hle : (m : Rat) ≤ 32768 := mod_cast hle
    have hpos : (0 : Rat) < m / (2 ^ k : Nat) := by positivity
    have hhigh : (0 : Rat) ≤ 32767 / (2 ^ k : Nat) := by positivity
    exact ⟨neg_le_neg (div_le_div_of_nonneg_right hle hscale.le), (neg_neg_of_pos hpos).le.trans hhigh, hround,
      fun hzero => absurd hzero hpos.ne'⟩

/-- Settles O9: VOLT and TEMP divide what RDI16 left by 2^12 and by 2^8, or the exception is taken. -/
theorem voltAndTempAdaptersScaleExactly : Obligations.VoltAndTempAdaptersScaleExactly := by
  refine ⟨?bytes, ?short, fun b0 b1 => ?volt, fun b0 b1 => ?temp⟩
  case bytes =>
    exact fun s b0 b1 hlen h0 h1 =>
      ⟨hold_fixedPoint_of_bytes 4096 hlen h0 h1, hold_fixedPoint_of_bytes 256 hlen h0 h1⟩
  case short =>
    exact fun s hshort =>
      ⟨reader_readVolt.hold_aborts_of_short hshort _, reader_readTemp.hold_aborts_of_short hshort _⟩
  case volt => simpa [show (32768 : Rat) / 4096 = 8 by norm_num] using fixedI16_two_pow (k := 12) (by norm_num) b0 b1
  case temp => simpa [show (32768 : Rat) / 256 = 128 by norm_num] using fixedI16_two_pow (k := 8) (by norm_num) b0 b1

/-! ### `RoundOut` is monotone -/

/-- Rounding to the nearest integer is monotone: no error exceeds one half, so two values rounded in the wrong order
would both lie halfway between the results and be the same. -/
theorem roundHalfEven_mono {x y : Rat} (h : x ≤ y) : roundHalfEven x ≤ roundHalfEven y := by
  by_contra! hlt
  have hgap : (roundHalfEven y : Rat) + 1 ≤ roundHalfEven x := mod_cast hlt
  have hx := (abs_le.1 (abs_roundHalfEven_sub_le x)).2
  have hy := (abs_le.1 (abs_roundHalfEven_sub_le y)).1
  obtain rfl : x = y := le_antisymm h (by linarith)
  exact hlt.false

/-- A rounded value is at most the upper end of its binade. -/
theorem roundOut_le_two_zpow (q : Rat) : roundOut q ≤ (2 : Rat) ^ (binadeExp q + 1) := by
  have hunits : roundHalfEven (q / ulp q) ≤ 2 ^ 53 := roundHalfEven_le (mod_cast div_ulp_le q)
  rw [roundOut_eq, ← two_pow_mul_ulp]
  exact mul_le_mul_of_nonneg_right (mod_cast hunits) (ulp_pos q).le

/-- Above the lowest binade a rounded value is at least the lower end of its binade. -/
theorem two_zpow_le_roundOut {q : Rat} (hq : 0 < q) (h : -1022 < binadeExp q) :
    (2 : Rat) ^ binadeExp q ≤ roundOut q := by
  have hnormal : (2 : Rat) ^ (-1022 : Int) ≤ q :=
    not_lt.1 fun hsub => h.ne' (binadeExp_of_subnormal hq hsub)
  have hunits : 2 ^ 52 ≤ roundHalfEven (q / ulp q) := le_roundHalfEven (mod_cast le_div_ulp_of_normal hnormal)
  have hlow : (2 : Rat) ^ binadeExp q = 2 ^ 52 * ulp q := by
    have htop := two_pow_mul_ulp q
    rw [zpow_add_one₀ two_ne_zero] at htop
    linarith
  rw [roundOut_eq, hlow]
  exact mul_le_mul_of_nonneg_right (mod_cast hunits) (ulp_pos q).le

theorem binadeExp_mono {p q : Rat} (hp : 0 < p) (h : p ≤ q) : binadeExp p ≤ binadeExp q :=
  max_le_max_right _ (Int.log_mono_right hp h)

theorem roundOut_nonneg {q : Rat} (hq : 0 ≤ q) : 0 ≤ roundOut q := by
  have hunits : 0 ≤ roundHalfEven (q / ulp q) :=
    le_roundHalfEven (by simpa using div_nonneg hq (ulp_pos q).le)
  rw [roundOut_eq]
  exact mul_nonneg (mod_cast hunits) (ulp_pos q).le

/-- `RoundOut` is monotone: in one binade the numbers of units are rounded, and between two binades lies a power of two
that neither rounding passes (D6). -/
theorem roundOut_mono {p q : Rat} (hp : 0 ≤ p) (h : p ≤ q) : roundOut p ≤ roundOut q := by
  rcases hp.eq_or_lt with rfl | hpos
  · exact roundOut_nonneg h
  rcases (binadeExp_mono hpos h).eq_or_lt with hsame | hbelow
  · have hulp : ulp p = ulp q := by rw [ulp, ulp, hsame]
    have hunits : roundHalfEven (p / ulp q) ≤ roundHalfEven (q / ulp q) :=
      roundHalfEven_mono (div_le_div_of_nonneg_right h (ulp_pos q).le)
    rw [roundOut_eq, roundOut_eq q, hulp]
    exact mul_le_mul_of_nonneg_right (mod_cast hunits) (ulp_pos q).le
  · calc roundOut p ≤ (2 : Rat) ^ (binadeExp p + 1) := roundOut_le_two_zpow p
      _ ≤ (2 : Rat) ^ binadeExp q := zpow_le_zpow_right₀ one_le_two hbelow
      _ ≤ roundOut q :=
        two_zpow_le_roundOut (hpos.trans_le h) ((outMinExp_le_binadeExp p).trans_lt hbelow)

/-! ### The humidity -/

/-- `RoundOut` leaves the integers of at most 53 bits. -/
theorem roundOut_natCast {m : Nat} (hlt : m < 2 ^ 53) : roundOut m = m := by
  simpa using roundOut_natCast_mul_zpow (k := 0) hlt (by norm_num)

/-- The exact quotient of RH is not negative (R143). -/
theorem humidityQuotient_nonneg (u : Nat) : (0 : Rat) ≤ ((u * 100 : Nat) : Rat) / 65535 := by positivity

/-- Settles O12: the quotient is in [0, 100], whose ends are exact, and `RoundOut` is monotone. -/
theorem humidityLiesInRangeAndIsMonotone : Obligations.HumidityLiesInRangeAndIsMonotone := by
  refine ⟨fun b0 b1 => ⟨_, rfl, roundOut_nonneg (humidityQuotient_nonneg _), ?top⟩, ?mono⟩
  case top =>
    have h0 := b0.isLt
    have h1 := b1.isLt
    have hnum : (b0.toNat * 256 + b1.toNat) * 100 ≤ 100 * 65535 := by omega
    have hle : (((b0.toNat * 256 + b1.toNat) * 100 : Nat) : Rat) / 65535 ≤ (100 : Nat) :=
      (div_le_iff₀ (by norm_num)).2 (mod_cast hnum)
    exact (roundOut_mono (humidityQuotient_nonneg _) hle).trans_eq (roundOut_natCast (by norm_num))
  case mono =>
    intro b0 b1 c0 c1 p q hle hp hq
    obtain ⟨-, rfl⟩ := FVal.finite.inj hp
    obtain ⟨-, rfl⟩ := FVal.finite.inj hq
    refine roundOut_mono (humidityQuotient_nonneg _) ?_
    gcongr

/-- A rounded value is an integer over a power of two (D5). -/
theorem exists_roundOut_mul_two_pow {q : Rat} (hq : 0 ≤ q) : ∃ k n : Nat, roundOut q * 2 ^ k = n := by
  obtain ⟨n, e, -, -, -, hround, -⟩ := roundOutIsNearestTiesToEven q hq
  obtain ⟨i, rfl | rfl⟩ := e.eq_nat_or_neg
  · exact ⟨0, n * 2 ^ i, by simp [hround]⟩
  · exact ⟨i, n, by simp [hround]⟩

/-- A fraction with an odd denominator is left by `RoundOut` only where it is an integer, for the values of the format
are fractions with a power of two as denominator. -/
theorem roundOut_div_eq_self_iff {a d : Nat} (hd : Odd d) (ha : a < 2 ^ 53) :
    roundOut ((a : Rat) / d) = a / d ↔ d ∣ a := by
  have hd0 : (d : Rat) ≠ 0 := mod_cast hd.pos.ne'
  constructor
  · intro hexact
    obtain ⟨k, n, hn⟩ := exists_roundOut_mul_two_pow (q := (a : Rat) / d) (by positivity)
    have hcross : a * 2 ^ k = d * n := by
      rw [hexact, div_mul_eq_mul_div, div_eq_iff hd0, mul_comm (n : Rat)] at hn
      exact_mod_cast hn
    exact (hd.coprime_two_right.pow_right k).dvd_of_dvd_mul_right ⟨n, hcross⟩
  · rintro ⟨j, rfl⟩
    have hj : j < 2 ^ 53 := (Nat.le_mul_of_pos_left j hd.pos).trans_lt ha
    rw [Nat.cast_mul, mul_div_cancel_left₀ _ hd0, roundOut_natCast hj]

/-- Settles O13: the quotient is an integer for the multiples of 13107, which is 65535 without the factor it shares
with 100. -/
theorem humidityIsExactForSixRawValues : Obligations.HumidityIsExactForSixRawValues := by
  intro b0 b1
  have h0 := b0.isLt
  have h1 := b1.isLt
  refine ⟨_, rfl, ?_⟩
  have hexact := roundOut_div_eq_self_iff (a := (b0.toNat * 256 + b1.toNat) * 100) (d := 65535)
    (by decide) (by omega)
  exact hexact.trans (by omega)

end Sys2Proof.Machine
end

section
/-! PROOFS. The frame steps as instructions (43_frame_parser.md R162 to R172): each completes with its writes, or takes
OutOfBounds where its read began. Then the step of the automaton in each parser state (R161). -/

namespace Sys2Proof.Machine

/-! ### The next-state function and the header steps -/

/-- There is no group from 7 up (R165). -/
@[simp] theorem nextState_seven (b : Byte) : nextState 7 b = .done := by
  rcases nextState_cases 7 b with ⟨j, hj, -⟩ | ⟨-, h⟩
  · omega
  · exact h

/-- Settles O4: the two answers of the next-state function, and what entering each writes. -/
theorem nextStateIsTheLeastSetBit : Obligations.NextStateIsTheLeastSetBit := by
  refine fun s k _ => ⟨?_, nextState_seven s.bm⟩
  rcases nextState_cases k s.bm with ⟨j, hkj, hbit, hgap, hnext⟩ | ⟨hgap, hnext⟩
  · exact .inl ⟨j, hkj, hbit, hgap, hnext, State.enterNext_of_field hnext⟩
  · exact .inr ⟨hgap, hnext, State.enterNext_of_done hnext⟩

theorem exec_chgate_of_foreign {s : State} (h : s.ch ≠ s.cfg.channelId) : exec .chgate s = .next s.enterNotMine :=
  if_pos h

theorem exec_chgate_of_own {s : State} (h : s.ch = s.cfg.channelId) : exec .chgate s = .next s :=
  if_neg (not_not.2 h)

/-- Settles O20: by the channel. -/
theorem channelGateRoutesAForeignChannel : Obligations.ChannelGateRoutesAForeignChannel :=
  fun _ => ⟨exec_chgate_of_foreign, exec_chgate_of_own⟩

theorem exec_tagchk_of_short {s : State} (h : s.len < s.off + 1) : exec .tagchk s = .next s.takeOutOfBounds :=
  if_pos h

/-- With a byte left TAGCHK goes by byte 0 (R163). -/
theorem exec_tagchk_of_byte {s : State} {b : Byte} (hlen : s.off + 1 ≤ s.len)
    (hb : Memory.byteAt s.mem 0 = some b) :
    exec .tagchk s =
      .next (if b ≠ Config.tag then s.enterNotMine else (s.setOff 1).setSt .awaitingBitmap) := by
  simp only [exec, execTagchk, if_neg (Nat.not_lt.2 hlen), memRead1_of_byte hb]
  exact (apply_ite Host.Outcome.next ..).symm

/-- Settles O21: by the length and byte 0; on an empty frame the cursor, at 0, says that no tag was read. -/
theorem tagGateChecksByteZero : Obligations.TagGateChecksByteZero := by
  refine ⟨fun s hshort => ⟨_, exec_tagchk_of_short hshort, takeOutOfBounds_abortedFrom s⟩, ?byte, ?empty⟩
  case byte =>
    intro s b hlen hb
    rw [exec_tagchk_of_byte hlen hb]
    exact ⟨fun hne => by rw [if_pos hne]; rfl, fun heq => by rw [if_neg (not_not.2 heq)]; rfl⟩
  case empty =>
    intro s t hoff hlen h
    rw [exec_tagchk_of_short (by omega)] at h
    rw [next_injective h, State.takeOutOfBounds_diagTagValid, hoff]
    rfl

/-! ### A read with what a step makes of it -/

section
variable {α : Type} {n : Nat} {op : State → OpResult α} {s t : State}
  {k : α → State → Host.Outcome State Fault Refusal}

/-- With too few bytes a step that runs an operation leaves what OutOfBounds leaves (R100, R213, R214). -/
theorem Reader.finish_aborts_of_short (h : Reader n op) (hlen : s.len < s.off + n) :
    ∃ t, (op s).finish k = .next t ∧ AbortedFrom s t :=
  ⟨s.takeOutOfBounds, h.finish_of_short hlen k, takeOutOfBounds_abortedFrom s⟩

/-- A step that had the bytes of its operation went on with a value, behind those bytes. -/
theorem Reader.of_finish (h : Reader n op) (hlen : s.off + n ≤ s.len) (hexec : (op s).finish k = .next t) :
    ∃ v, k v (s.setOff (s.off + n)) = .next t := by
  obtain ⟨f, hf⟩ := h
  rw [hf] at hexec
  rcases readAt_finish hexec with ⟨v, -, -, ht⟩ | ⟨hshort, -⟩
  · exact ⟨v, ht⟩
  · omega

end

/-- A step that reads a byte goes on with it (R101). -/
theorem finish_readU8_of_byte {s : State} {b : Byte} (hlen : s.off + 1 ≤ s.len)
    (hb : Memory.byteAt s.mem s.off = some b) (k : Byte → State → Host.Outcome State Fault Refusal) :
    (readU8 s).finish k = k b (s.setOff (s.off + 1)) := by
  rw [readU8_ok hlen hb, OpResult.finish_ok]

theorem exec_bmload_of_byte {s : State} {b : Byte} (hlen : s.off + 1 ≤ s.len)
    (hb : Memory.byteAt s.mem s.off = some b) :
    exec .bmload s = .next (State.enterNext { s with off := s.off + 1, bm := b } 0) :=
  finish_readU8_of_byte hlen hb _

theorem exec_bmload_of_short {s : State} (hshort : s.len < s.off + 1) : exec .bmload s = .next s.takeOutOfBounds :=
  reader_readU8.finish_of_short hshort _

/-- Settles O22: RDU8 gives the bitmap, whose groups say where the decode goes on. -/
theorem bitmapLoadSelectsTheFirstGroup : Obligations.BitmapLoadSelectsTheFirstGroup := by
  refine ⟨fun s b hlen hb => ?_, fun s => reader_readU8.finish_aborts_of_short⟩
  refine ⟨exec_bmload_of_byte hlen hb, fun hgap => (exec_bmload_of_byte hlen hb).trans ?_⟩
  rcases nextState_cases 0 b with ⟨j, -, hbit, -⟩ | ⟨-, hdone⟩
  · simp [hgap j] at hbit
  · exact congrArg _ (State.enterNext_of_done hdone)

/-! ### The field steps -/

section
variable {s : State} {b0 b1 b2 b3 : Byte}

/-- A step that reads a signed field goes on with the fixed-point value of its two bytes (R141, R142). -/
theorem finish_fixedPoint_of_bytes (scale : Nat) (hlen : s.off + 2 ≤ s.len)
    (h0 : Memory.byteAt s.mem s.off = some b0) (h1 : Memory.byteAt s.mem (s.off + 1) = some b1)
    (k : FVal → State → Host.Outcome State Fault Refusal) :
    ((readI16 s).map (fixedPoint scale)).finish k = k (fixedI16 scale b0 b1) (s.setOff (s.off + 2)) := by
  rw [readI16, readU16_ok hlen h0 h1, OpResult.map_ok, OpResult.map_ok, OpResult.finish_ok,
    fixedPoint_signed16_append]

theorem exec_field0_of_bytes (hlen : s.off + 2 ≤ s.len) (h0 : Memory.byteAt s.mem s.off = some b0)
    (h1 : Memory.byteAt s.mem (s.off + 1) = some b1) :
    exec .field0 s = .next (State.enterNext { s with
      off := s.off + 2
      record := { s.record with batteryVoltage := some (fixedI16 4096 b0 b1) } } 1) :=
  finish_fixedPoint_of_bytes 4096 hlen h0 h1 _

theorem exec_field1_of_bytes (hlen : s.off + 2 ≤ s.len) (h0 : Memory.byteAt s.mem s.off = some b0)
    (h1 : Memory.byteAt s.mem (s.off + 1) = some b1) :
    exec .field1 s = .next (State.enterNext { s with
      off := s.off + 2
      record := { s.record with busVoltage := some (fixedI16 4096 b0 b1) } } 2) :=
  finish_fixedPoint_of_bytes 4096 hlen h0 h1 _

theorem exec_field2_of_byte (hlen : s.off + 1 ≤ s.len) (h0 : Memory.byteAt s.mem s.off = some b0) :
    exec .field2 s = .next (State.enterNext { s with
      off := s.off + 1
      record := { s.record with bootCount := some b0 } } 3) :=
  finish_readU8_of_byte hlen h0 _

/-- FIELD3 with its four bytes: temperature, then humidity, with what an attached `Derive` gives (R169, R179). -/
theorem exec_field3_of_bytes (hlen : s.off + 4 ≤ s.len) (h0 : Memory.byteAt s.mem s.off = some b0)
    (h1 : Memory.byteAt s.mem (s.off + 1) = some b1) (h2 : Memory.byteAt s.mem (s.off + 2) = some b2)
    (h3 : Memory.byteAt s.mem (s.off + 3) = some b3) :
    exec .field3 s = .next (State.enterNext { s with
      off := s.off + 4
      record := climateRecord s.cfg.deriveAttached (fixedI16 256 b0 b1) (humidityU16 b2 b3) s.record } 4) :=
  exec_field3_of_adapters hlen (hold_fixedPoint_of_bytes 256 (by omega) h0 h1) rfl
    (exec_rh_of_bytes (s := { s with off := s.off + 2, ret := some (.fval (fixedI16 256 b0 b1)) }) hlen h2 h3) rfl

/-- FIELD3 with its temperature alone fails where the humidity would begin (R169, R213). -/
theorem exec_field3_of_temperature_only (hlen : s.off + 2 ≤ s.len) (hshort : s.len < s.off + 4)
    (h0 : Memory.byteAt s.mem s.off = some b0) (h1 : Memory.byteAt s.mem (s.off + 1) = some b1) :
    exec .field3 s = .next (s.setOff (s.off + 2)).takeOutOfBounds := by
  rw [exec_field3_of_humidity_short hlen hshort (hold_fixedPoint_of_bytes 256 hlen h0 h1)]
  exact reader_readRh.hold_of_short hshort _

theorem exec_field4_of_bytes (hlen : s.off + 3 ≤ s.len) (h0 : Memory.byteAt s.mem s.off = some b0)
    (h1 : Memory.byteAt s.mem (s.off + 1) = some b1) (h2 : Memory.byteAt s.mem (s.off + 2) = some b2) :
    exec .field4 s = .next (State.enterNext { s with
      off := s.off + 3
      record := { s.record with lux := some (cfValue (b0.toNat * 65536 + b1.toNat * 256 + b2.toNat)) } } 5) :=
  reader_readLux.finish_of_hold fval_injective hlen (exec_lux_of_bytes hlen h0 h1 h2) rfl _

theorem exec_field5_of_bytes (hlen : s.off + 2 ≤ s.len) (h0 : Memory.byteAt s.mem s.off = some b0)
    (h1 : Memory.byteAt s.mem (s.off + 1) = some b1) :
    exec .field5 s = .next (State.enterNext { s with
      off := s.off + 2
      record := { s.record with probeOneTemperatureC := some (fixedI16 256 b0 b1) } } 6) :=
  finish_fixedPoint_of_bytes 256 hlen h0 h1 _

theorem exec_field6_of_bytes (hlen : s.off + 2 ≤ s.len) (h0 : Memory.byteAt s.mem s.off = some b0)
    (h1 : Memory.byteAt s.mem (s.off + 1) = some b1) :
    exec .field6 s = .next (State.enterNext { s with
      off := s.off + 2
      record := { s.record with probeTwoTemperatureC := some (fixedI16 256 b0 b1) } } 7) :=
  finish_fixedPoint_of_bytes 256 hlen h0 h1 _

end

/-- After a field step a register it wrote is present (R25). -/
theorem State.enterNext_valid {s : State} {k : Nat} {f : Field} (h : s.record.valid f = true) :
    (s.enterNext k).record.valid f = true := by
  rwa [State.enterNext_record]

/-- In the invariant the cursor at a group is where the bitmap puts the group (R33). -/
theorem off_eq_groupPos_of_inv {s : State} {k : Fin 7} (hinv : Inv s) (hst : s.st = .field k) :
    s.off = groupPos k.val s.bm :=
  ((inv_field_iff hst).1 hinv).1.cursor

/-- Settles O23: VOLT gives the value or takes the exception; group 0 is the first behind the header. -/
theorem batteryVoltageStep : Obligations.BatteryVoltageStep :=
  ⟨fun _ _ _ hlen h0 h1 => ⟨_, exec_field0_of_bytes hlen h0 h1, State.enterNext_valid rfl, rfl⟩,
    fun _ => reader_readVolt.finish_aborts_of_short, fun _ => off_eq_groupPos_of_inv⟩

/-- Settles O24: VOLT gives the value or takes the exception; group 1 is behind group 0, if the bitmap has that. -/
theorem busVoltageStep : Obligations.BusVoltageStep := by
  refine ⟨fun _ _ _ hlen h0 h1 => ⟨_, exec_field1_of_bytes hlen h0 h1, State.enterNext_valid rfl, rfl⟩,
    fun _ => reader_readVolt.finish_aborts_of_short, fun s hinv hst => ?_⟩
  calc s.off = groupPos 0 s.bm + groupBytes s.bm 0 := (off_eq_groupPos_of_inv hinv hst).trans (groupPos_succ 0 s.bm)
    _ = 2 + if s.bm.getLsbD 0 then 2 else 0 := rfl
    _ = if s.bm.getLsbD 0 then 4 else 2 := by split_ifs <;> rfl

/-- Settles O25: BOOT gives the byte or takes the exception. -/
theorem bootCounterStep : Obligations.BootCounterStep :=
  ⟨fun _ _ hlen h0 => ⟨_, exec_field2_of_byte hlen h0, State.enterNext_valid rfl, rfl⟩,
    fun _ => reader_readBoot.finish_aborts_of_short⟩

/-- Settles O26: LUX gives the value of the word's class or takes the exception. -/
theorem lightLevelStep : Obligations.LightLevelStep :=
  ⟨fun _ _ _ _ hlen h0 h1 h2 => ⟨_, exec_field4_of_bytes hlen h0 h1 h2, State.enterNext_valid rfl, rfl⟩,
    fun _ => reader_readLux.finish_aborts_of_short⟩

/-- Settles O27: TEMP gives the value or takes the exception. -/
theorem probeOneTemperatureStep : Obligations.ProbeOneTemperatureStep :=
  ⟨fun _ _ _ hlen h0 h1 => ⟨_, exec_field5_of_bytes hlen h0 h1, State.enterNext_valid rfl, rfl⟩,
    fun _ => reader_readTemp.finish_aborts_of_short⟩

/-- Settles O28: TEMP gives the value or takes the exception; whatever the value, no group is left. -/
theorem probeTwoTemperatureStep : Obligations.ProbeTwoTemperatureStep := by
  refine ⟨fun _ _ _ hlen h0 h1 => ⟨_, exec_field6_of_bytes hlen h0 h1, State.enterNext_valid rfl, rfl⟩,
    fun _ => reader_readTemp.finish_aborts_of_short, fun s t hlen hexec => ?_⟩
  obtain ⟨v, hv⟩ := reader_readTemp.of_finish hlen hexec
  rw [next_injective hv, State.enterNext_st, nextState_seven]

/-- Settles O29: TEMP, then RH behind it; the exception is taken where the read that fails begins. -/
theorem climateStepReadsTemperatureThenHumidity : Obligations.ClimateStepReadsTemperatureThenHumidity :=
  ⟨fun _ _ _ _ _ hlen h0 h1 h2 h3 =>
      ⟨_, exec_field3_of_bytes hlen h0 h1 h2 h3, State.enterNext_valid rfl, State.enterNext_valid rfl, rfl⟩,
    fun _ => reader_readTemp.finish_aborts_of_short,
    fun s _ _ hlen hshort h0 h1 =>
      ⟨_, exec_field3_of_temperature_only hlen hshort h0 h1, takeOutOfBounds_abortedFrom (s.setOff (s.off + 2))⟩⟩

/-! ### The step in each parser state -/

/-- A presented call is taken where no decode is running (R241). -/
theorem step_of_call {s : State} {c : Call} (hcall : s.call = some c) (hidle : s.st.running = false) :
    step s = .next (s.start c) := by
  simp [step, stepOnce, hcall, acceptCall, hidle]

theorem selected_of_not_running {p : PState} (h : p.running = false) : selected p = [] := by
  cases p with
  | idle | done | notMine | failed => rfl
  | awaitingTag | awaitingBitmap | field => cases h

section
variable {s : State} (hcall : s.call = none)
include hcall

theorem step_eq_runSelected : step s = runSelected s.st (selected s.st) s := by
  simp only [step, stepOnce, hcall]

/-- Nothing is enabled where no decode is running (R161, R173; log 11). -/
theorem step_of_not_running (hidle : s.st.running = false) : step s = .next s := by
  rw [step_eq_runSelected hcall, selected_of_not_running hidle, runSelected]

theorem step_awaitingTag_of_foreign (hst : s.st = .awaitingTag) (hch : s.ch ≠ s.cfg.channelId) :
    step s = .next s.enterNotMine := by
  simp [step_eq_runSelected hcall, hst, selected, runSelected, exec_chgate_of_foreign hch]

/-- A gate that passes leaves the step to TAGCHK (R161, R162). -/
theorem step_awaitingTag_of_own (hst : s.st = .awaitingTag) (hch : s.ch = s.cfg.channelId) :
    step s = exec .tagchk s := by
  rw [step_eq_runSelected hcall, hst, selected, runSelected, exec_chgate_of_own hch]
  simp only [hst, if_true, runSelected_singleton]

theorem step_awaitingBitmap (hst : s.st = .awaitingBitmap) : step s = exec .bmload s := by
  rw [step_eq_runSelected hcall, hst, selected, runSelected_singleton]

theorem step_field {k : Fin 7} (hst : s.st = .field k) : step s = exec (fieldInstr k) s := by
  rw [step_eq_runSelected hcall, hst, selected, runSelected_singleton]

end

/-- Settles O43: no instruction is selected. -/
theorem nothingHappensWithoutACall : Obligations.NothingHappensWithoutACall :=
  fun _ => step_of_not_running

/-- A set bit is the least set bit from itself up (R165). -/
theorem firstGroup_of_bit {b : Byte} {k : Fin 7} (hbit : b.getLsbD k.val = true) : firstGroup k.val b = some k :=
  (firstGroup_eq_some_iff ..).2 ⟨Nat.le_refl _, hbit, fun _ hki hik => absurd hki (Nat.not_le.2 hik)⟩

/-- At a group the bitmap has, the bitmap as the selector from that group decodes to the step of the group (R85). -/
theorem decode_select_of_bit {b : Byte} {k : Fin 7} (hbit : b.getLsbD k.val = true) :
    decode (.select k.val) [b] = .ok (fieldInstr k, []) := by
  rw [decode, firstGroup_of_bit hbit]

/-- Settles O45: by the parser state; what the decoder reads there is what the automaton selects. -/
theorem stepRunsTheDecodedInstruction : Obligations.StepRunsTheDecodedInstruction := by
  intro s hcall
  refine ⟨fun hst => ⟨fun hch => ⟨rfl, ?_⟩, step_awaitingTag_of_own hcall hst⟩, fun b i hst hdec => ?_,
    fun k i hst hbit hdec => ?_⟩
  · rw [step_awaitingTag_of_foreign hcall hst hch, exec_chgate_of_foreign hch]
  · obtain ⟨rfl, -⟩ := Prod.mk.inj (Except.ok.inj hdec)
    exact step_awaitingBitmap hcall hst
  · rw [decode_select_of_bit hbit] at hdec
    obtain ⟨rfl, -⟩ := Prod.mk.inj (Except.ok.inj hdec)
    exact step_field hcall hst

/-! ### Entering a group or passing it over -/

/-- A group the bitmap has is entered (R165). -/
theorem State.enterNext_of_bit {s : State} {k : Fin 7} (hbit : s.bm.getLsbD k.val = true) :
    s.enterNext k.val = s.setSt (.field k) :=
  State.enterNext_of_field (by rw [nextState, firstGroup_of_bit hbit])

/-- A group the bitmap does not have is passed over (R165). -/
theorem State.enterNext_of_no_bit {s : State} {k : Fin 7} (hbit : s.bm.getLsbD k.val = false) :
    s.enterNext k.val = s.enterNext (k.val + 1) := by
  have hsame (j : Fin 7) :
      (decide (k.val ≤ j.val) && s.bm.getLsbD j.val) = (decide (k.val + 1 ≤ j.val) && s.bm.getLsbD j.val) := by
    by_cases hj : j = k
    · simp [hj, hbit]
    · rw [decide_eq_decide.2 (show k.val ≤ j.val ↔ k.val + 1 ≤ j.val by omega)]
  simp only [State.enterNext, nextState, firstGroup, hsame]

end Sys2Proof.Machine
end

section
/-! PROOFS. The decode function (43_frame_parser.md R174): its answer in each case, its payload reads group by group,
and which bits and bytes it depends on (R176, R177). -/

namespace Sys2Proof.Machine

/-! ### The answer in each case -/

section
variable {cfg : Cfg} {ch : Int} {bs payload : List Byte} {x b : Byte}

theorem decodeFrame_of_foreign_channel (hch : ch ≠ cfg.channelId) : decodeFrame cfg bs ch = ⟨.notMine, 0⟩ :=
  if_pos hch

theorem decodeFrame_of_foreign_tag (hx : x ≠ Config.tag) : decodeFrame cfg (x :: bs) ch = ⟨.notMine, 0⟩ := by
  simp [decodeFrame, frameU8, hx]

theorem decodeFrame_nil (hch : ch = cfg.channelId) :
    decodeFrame cfg [] ch = ⟨.decodeError ⟨ch, none, .outOfBounds⟩, 0⟩ := by
  simp [decodeFrame, hch]

theorem decodeFrame_tag (hch : ch = cfg.channelId) :
    decodeFrame cfg [Config.tag] ch = ⟨.decodeError ⟨ch, some Config.tag, .outOfBounds⟩, 1⟩ := by
  simp [decodeFrame, frameU8, hch]

/-- A frame that is too short for its bitmap (R174). -/
theorem decodeFrame_of_truncated {n : Nat} (hch : ch = cfg.channelId)
    (hfail : failOff b (payload.length + 2) = some n) :
    decodeFrame cfg (Config.tag :: b :: payload) ch =
      ⟨.decodeError ⟨ch, some Config.tag, .outOfBounds⟩, n⟩ := by
  simp [decodeFrame, frameU8, hch, hfail]

/-- A frame with every byte its bitmap promises (R174). -/
theorem decodeFrame_of_complete (hch : ch = cfg.channelId) (hfail : failOff b (payload.length + 2) = none) :
    decodeFrame cfg (Config.tag :: b :: payload) ch =
      ⟨.record (frameRecord cfg.deriveAttached (Config.tag :: b :: payload) b), need b⟩ := by
  simp [decodeFrame, frameU8, hch, hfail]

end

/-! ### The values, byte by byte -/

theorem voltage_frameI16 (bs : List Byte) (a : Nat) :
    voltage (frameI16 bs a) = fixedI16 4096 (frameU8 bs a) (frameU8 bs (a + 1)) :=
  fixedPoint_signed16_append ..

theorem temperature_frameI16 (bs : List Byte) (a : Nat) :
    temperature (frameI16 bs a) = fixedI16 256 (frameU8 bs a) (frameU8 bs (a + 1)) :=
  fixedPoint_signed16_append ..

theorem humidity_frameU16 (bs : List Byte) (a : Nat) :
    humidity (frameU16 bs a) = humidityU16 (frameU8 bs a) (frameU8 bs (a + 1)) :=
  humidity_append ..

theorem cfDecode_frameU24 (bs : List Byte) (a : Nat) :
    cfDecode (frameU24 bs a) = cfValue ((frameU8 bs a).toNat * 65536 + (frameU8 bs (a + 1)).toNat * 256 +
      (frameU8 bs (a + 2)).toNat) := by
  rw [← toNat_append_bytes3, ← cfDecode_eq_cfValue, frameU24]

/-! ### The payload reads, group by group -/

/-- The start of the first of some reads that ends behind `len` (R174). -/
def firstFail (len : Nat) (reads : List (Nat × Nat)) : Option Nat :=
  (reads.find? fun r => decide (len < r.1 + r.2)).map Prod.fst

@[simp] theorem firstFail_nil (len : Nat) : firstFail len [] = none := rfl

@[simp] theorem firstFail_cons (len a n : Nat) (reads : List (Nat × Nat)) :
    firstFail len ((a, n) :: reads) = if len < a + n then some a else firstFail len reads := by
  by_cases h : len < a + n <;> simp [firstFail, h]

/-- The width of the first read of group `k`; the climate group has a second one of two bytes (R73, R169). -/
def firstReadWidth (k : Fin 7) : Nat := if k = 3 then 2 else groupWidth k

/-- The reads of group `k` (R174). -/
def groupReads (b : Byte) (k : Fin 7) : List (Nat × Nat) :=
  if k = 3 then [(groupPos 3 b, 2), (groupPos 3 b + 2, 2)] else [(groupPos k.val b, groupWidth k)]

/-- The reads of the groups from `k` up that the bitmap has. -/
def readsFrom (k : Nat) (b : Byte) : List (Nat × Nat) :=
  (([0, 1, 2, 3, 4, 5, 6] : List (Fin 7)).drop k).flatMap fun j => if b.getLsbD j.val then groupReads b j else []

/-- `FailOff` is the first failing read from group 0 up (R174). -/
theorem failOff_eq_firstFail (b : Byte) (len : Nat) : failOff b len = firstFail len (readsFrom 0 b) := rfl

@[simp] theorem readsFrom_seven (b : Byte) : readsFrom 7 b = [] := rfl

theorem readsFrom_eq (k : Fin 7) (b : Byte) :
    readsFrom k.val b = (if b.getLsbD k.val then groupReads b k else []) ++ readsFrom (k.val + 1) b := by
  fin_cases k <;> rfl

theorem readsFrom_of_no_bit {b : Byte} {k : Fin 7} (hbit : b.getLsbD k.val = false) :
    readsFrom k.val b = readsFrom (k.val + 1) b := by
  simp [readsFrom_eq k, hbit]

/-- The first failing read from a group of the bitmap up: the first read of the group, the second one, which is the
humidity, or a read behind the group (R174). -/
theorem firstFail_readsFrom {b : Byte} {k : Fin 7} (hbit : b.getLsbD k.val = true) (len : Nat) :
    firstFail len (readsFrom k.val b) =
      if len < groupPos k.val b + firstReadWidth k then some (groupPos k.val b)
      else if len < groupPos k.val b + groupWidth k then some (groupPos k.val b + 2)
      else firstFail len (readsFrom (k.val + 1) b) := by
  rw [readsFrom_eq k, if_pos hbit]
  by_cases hk : k = 3
  · subst hk
    simp only [groupReads, firstReadWidth, if_true, List.cons_append, List.nil_append, firstFail_cons]
    rfl
  · simp only [groupReads, firstReadWidth, if_neg hk, List.singleton_append, firstFail_cons]
    split_ifs <;> rfl

/-! ### What the answer depends on -/

section
variable {b b' : Byte} (hbits : ∀ k : Fin 7, b'.getLsbD k.val = b.getLsbD k.val)
include hbits

/-- The offsets depend on the seven group bits alone (R79). -/
theorem groupPos_congr (k : Nat) : groupPos k b' = groupPos k b := by
  have hbytes (j : Fin 7) : groupBytes b' j = groupBytes b j := by rw [groupBytes, groupBytes, hbits]
  simp only [groupPos, bytesBelow, hbytes]

theorem need_congr : need b' = need b := groupPos_congr hbits 7

theorem failOff_congr (len : Nat) : failOff b' len = failOff b len := by
  simp only [failOff, frameReads, hbits, groupPos_congr hbits]

end

theorem bytesBelow_mono {b : Byte} {i j : Nat} (h : i ≤ j) (ks : List (Fin 7)) :
    bytesBelow b i ks ≤ bytesBelow b j ks := by
  induction ks with
  | nil => exact Nat.le_refl 0
  | cons k ks ih =>
    simp only [bytesBelow]
    split_ifs <;> omega

/-- A group of the bitmap ends within the bytes the bitmap promises (R78, R174). -/
theorem groupEnd_le_need {b : Byte} {k : Fin 7} (hbit : b.getLsbD k.val = true) :
    groupPos k.val b + groupWidth k ≤ need b := by
  have hend : groupPos (k.val + 1) b = groupPos k.val b + groupWidth k := by
    rw [groupPos_succ, groupBytes, if_pos hbit]
  exact hend ▸ Nat.add_le_add_left (bytesBelow_mono k.isLt _) 2

theorem whenBit_congr {α : Type} {b b' : Byte} {k : Nat} {v v' : α} (hbit : b'.getLsbD k = b.getLsbD k)
    (hv : b.getLsbD k = true → v' = v) : whenBit b' k v' = whenBit b k v := by
  rw [whenBit, whenBit, hbit]
  exact ite_congr rfl (fun h => congrArg some (hv h)) fun _ => rfl

section
variable {b : Byte} {bs bs' : List Byte} (hbytes : ∀ a, 2 ≤ a → a < need b → frameU8 bs' a = frameU8 bs a)
include hbytes

theorem frameU8_group_congr (k : Fin 7) (i : Nat) (hi : i < groupWidth k) (hbit : b.getLsbD k.val = true) :
    frameU8 bs' (groupPos k.val b + i) = frameU8 bs (groupPos k.val b + i) := by
  have hend := groupEnd_le_need hbit
  exact hbytes _ ((Nat.le_add_right 2 _).trans (Nat.le_add_right _ i)) (by omega)

theorem frameU16_group_congr (k : Fin 7) (i : Nat) (hi : i + 1 < groupWidth k) (hbit : b.getLsbD k.val = true) :
    frameU16 bs' (groupPos k.val b + i) = frameU16 bs (groupPos k.val b + i) := by
  rw [frameU16, frameU16, frameU8_group_congr hbytes k i (by omega) hbit, Nat.add_assoc,
    frameU8_group_congr hbytes k (i + 1) hi hbit]

theorem frameI16_group_congr (k : Fin 7) (hk : 1 < groupWidth k) (hbit : b.getLsbD k.val = true) :
    frameI16 bs' (groupPos k.val b) = frameI16 bs (groupPos k.val b) :=
  congrArg signed16 (frameU16_group_congr hbytes k 0 hk hbit)

theorem frameU24_group_congr (hbit : b.getLsbD 4 = true) :
    frameU24 bs' (groupPos 4 b) = frameU24 bs (groupPos 4 b) :=
  congrArg₂ (· ++ ·)
    (congrArg₂ (· ++ ·) (frameU8_group_congr hbytes 4 0 (by decide) hbit)
      (frameU8_group_congr hbytes 4 1 (by decide) hbit))
    (frameU8_group_congr hbytes 4 2 (by decide) hbit)

/-- The record depends on the seven group bits and on the bytes of the groups (R79, R174, R176). -/
theorem frameRecord_congr {b' : Byte} (hbits : ∀ k : Fin 7, b'.getLsbD k.val = b.getLsbD k.val) (attached : Bool) :
    frameRecord attached bs' b' = frameRecord attached bs b := by
  have htemp (k : Fin 7) (hk : 1 < groupWidth k) (hbit : b.getLsbD k.val = true) :=
    congrArg temperature (frameI16_group_congr hbytes k hk hbit)
  have hvolt (k : Fin 7) (hk : 1 < groupWidth k) (hbit : b.getLsbD k.val = true) :=
    congrArg voltage (frameI16_group_congr hbytes k hk hbit)
  have hhum (hbit : b.getLsbD 3 = true) := congrArg humidity (frameU16_group_congr hbytes 3 2 (by decide) hbit)
  have hderive (hbit : b.getLsbD 3 = true) := congrArg₂ derive (htemp 3 (by decide) hbit) (hhum hbit)
  simp only [frameRecord, groupPos_congr hbits, Record.mk.injEq]
  refine ⟨?battery, ?bus, ?boot, ?temperature, ?humidity, ?dewpoint, ?heatIndex, ?lux, ?probeOne, ?probeTwo⟩
  case battery => exact whenBit_congr (hbits 0) (hvolt 0 (by decide))
  case bus => exact whenBit_congr (hbits 1) (hvolt 1 (by decide))
  case boot => exact whenBit_congr (hbits 2) (frameU8_group_congr hbytes 2 0 (by decide))
  case temperature => exact whenBit_congr (hbits 3) (htemp 3 (by decide))
  case humidity => exact whenBit_congr (hbits 3) hhum
  case dewpoint =>
    exact ite_congr rfl (fun _ => whenBit_congr (hbits 3) fun h => congrArg Prod.fst (hderive h)) fun _ => rfl
  case heatIndex =>
    exact ite_congr rfl (fun _ => congrArg Option.join
      (whenBit_congr (hbits 3) fun h => congrArg Prod.snd (hderive h))) fun _ => rfl
  case lux => exact whenBit_congr (hbits 4) fun h => congrArg cfDecode (frameU24_group_congr hbytes h)
  case probeOne => exact whenBit_congr (hbits 5) (htemp 5 (by decide))
  case probeTwo => exact whenBit_congr (hbits 6) (htemp 6 (by decide))

end

/-- No read goes past the bytes the bitmap promises (R78, R174). -/
theorem frameReads_end_le {b : Byte} {r : Nat × Nat} (hr : r ∈ frameReads b) : r.1 + r.2 ≤ need b := by
  obtain ⟨k, -, hk⟩ := List.mem_flatMap.1 hr
  by_cases hbit : b.getLsbD k.val = true
  · have hend := groupEnd_le_need hbit
    rw [if_pos hbit] at hk
    by_cases h3 : k = 3
    · subst h3
      have hlast : groupPos 3 b + 4 ≤ need b := hend
      rcases List.mem_pair.1 hk with rfl | rfl
      · exact (Nat.add_le_add_left (show 2 ≤ 4 by decide) _).trans hlast
      · exact hlast
    · rw [if_neg h3, List.mem_singleton] at hk
      exact hk ▸ hend
  · simp [hbit] at hk

/-- With all the bytes the bitmap promises no read fails (R174). -/
theorem failOff_of_need_le {b : Byte} {len : Nat} (h : need b ≤ len) : failOff b len = none := by
  rw [failOff, Option.map_eq_none_iff, List.find?_eq_none]
  intro r hr
  have hend := frameReads_end_le hr
  simp
  omega

/-- The record does not depend on bytes behind those the bitmap promises (R176). -/
theorem frameRecord_append {attached : Bool} {x b : Byte} {payload extra : List Byte}
    (h : need b ≤ payload.length + 2) :
    frameRecord attached (x :: b :: (payload ++ extra)) b = frameRecord attached (x :: b :: payload) b :=
  frameRecord_congr (fun a _ ha => List.getD_append (x :: b :: payload) extra 0 a (ha.trans_le h)) (fun _ => rfl)
    attached

/-- The reserved bit is no group bit (R79). -/
theorem getLsbD_flip_reserved (b : Byte) (k : Fin 7) : (b ^^^ 0x80).getLsbD k.val = b.getLsbD k.val := by
  fin_cases k <;> simp

/-- The reserved bit of the bitmap does not change the answer (R79, R177). -/
theorem decodeFrame_flip_reserved (cfg : Cfg) (x b : Byte) (rest : List Byte) (ch : Int) :
    decodeFrame cfg (x :: (b ^^^ 0x80) :: rest) ch = decodeFrame cfg (x :: b :: rest) ch := by
  by_cases hch : ch = cfg.channelId
  case neg => rw [decodeFrame_of_foreign_channel hch, decodeFrame_of_foreign_channel hch]
  by_cases hx : x = Config.tag
  case neg => rw [decodeFrame_of_foreign_tag hx, decodeFrame_of_foreign_tag hx]
  subst hx
  have hbits := getLsbD_flip_reserved b
  have hfail := failOff_congr hbits (rest.length + 2)
  have hbytes (a : Nat) (h2 : 2 ≤ a) (_ : a < need b) :
      frameU8 (Config.tag :: (b ^^^ 0x80) :: rest) a = frameU8 (Config.tag :: b :: rest) a := by
    obtain ⟨i, rfl⟩ := Nat.exists_eq_add_of_le' h2
    rfl
  cases h : failOff b (rest.length + 2) with
  | some n => rw [decodeFrame_of_truncated hch h, decodeFrame_of_truncated hch (hfail.trans h)]
  | none =>
    rw [decodeFrame_of_complete hch h, decodeFrame_of_complete hch (hfail.trans h), frameRecord_congr hbytes hbits,
      need_congr hbits]

end Sys2Proof.Machine
end

section
/-! PROOFS. The whole decode (43_frame_parser.md R174): by induction over the groups left, the run of the automaton ends
as the decode function says. The bound on its steps and the statements of what the outcome depends on follow (R161,
R175 to R177, R180). -/

namespace Sys2Proof.Machine

/-! ### The end of a decode -/

/-- The terminal state of an outcome (R173). -/
def Decoded.endState : Decoded → PState
  | .record _ => .done
  | .notMine => .notMine
  | .decodeError _ => .failed

/-- The record registers of an outcome: empty without a record (R216). -/
def Decoded.finalRecord : Decoded → Record
  | .record r => r
  | .notMine => Record.empty
  | .decodeError _ => Record.empty

/-- State `t` is the end of a decode with result `r` (R173). -/
structure EndsAs (r : Result) (t : State) : Prop where
  st : t.st = r.outcome.endState
  call : t.call = none
  off : t.off = r.offFinal
  offFinal : t.offFinal = some r.offFinal
  record : t.record = r.outcome.finalRecord
  result : t.result = some r

theorem enterDone_endsAs {s : State} (hcall : s.call = none) : EndsAs ⟨.record s.record, s.off⟩ s.enterDone :=
  ⟨rfl, hcall, rfl, rfl, rfl, rfl⟩

theorem enterNotMine_endsAs {s : State} (hcall : s.call = none) (hoff : s.off = 0)
    (hrecord : s.record = Record.empty) : EndsAs ⟨.notMine, 0⟩ s.enterNotMine :=
  ⟨rfl, hcall, hoff, rfl, hrecord, rfl⟩

/-- The abort shows the tag if the cursor is past it (R214). -/
theorem takeOutOfBounds_endsAs {s : State} {ch : Int} {n : Nat} {tag : Option Byte} (hcall : s.call = none)
    (hch : s.ch = ch) (hoff : s.off = n) (htag : (if 1 ≤ s.off then Memory.byteAt s.mem 0 else none) = tag) :
    EndsAs ⟨.decodeError ⟨ch, tag, .outOfBounds⟩, n⟩ s.takeOutOfBounds := by
  subst hch hoff htag
  refine ⟨rfl, hcall, rfl, rfl, rfl, ?_⟩
  by_cases hpos : 1 ≤ s.off <;> simp [State.result, hpos]

theorem Decoded.isTerminal_endState (d : Decoded) : isTerminal d.endState = true := by
  cases d <;> rfl

theorem running_of_terminal {p : PState} (h : isTerminal p = true) : p.running = false := by
  cases p with
  | done | notMine | failed => rfl
  | idle | awaitingTag | awaitingBitmap | field => cases h

/-- The run of `n` steps from `s` reaches the end with result `r`, where it then stays. -/
inductive EndsWithin (r : Result) : Nat → State → Prop where
  | ended {n : Nat} {s : State} : EndsAs r s → EndsWithin r n s
  | step {n : Nat} {s t : State} : step s = .next t → EndsWithin r n t → EndsWithin r (n + 1) s

theorem run_succ_of_step {M : Host.Core} {n : Nat} {s t : M.State} (h : M.step s = .next t) :
    M.run (n + 1) s = M.run n t := by
  simp only [Host.Core.run, h]

/-- A state whose step answers itself is where its runs end (R173). -/
theorem run_of_step_self {M : Host.Core} {s : M.State} (h : M.step s = .next s) (n : Nat) : M.run n s = .next s := by
  induction n with
  | zero => rfl
  | succ n ih => rw [run_succ_of_step h, ih]

theorem EndsWithin.succ {r : Result} {n : Nat} {s : State} (h : EndsWithin r n s) : EndsWithin r (n + 1) s := by
  induction h with
  | ended h => exact .ended h
  | step hs _ ih => exact .step hs ih

theorem EndsWithin.run {r : Result} {n : Nat} {s : State} (h : EndsWithin r n s) :
    ∃ t, Host.Core.run Sys2Proof.core n s = .next t ∧ EndsAs r t := by
  induction h with
  | @ended n s h =>
    have hidle := running_of_terminal (h.st ▸ r.outcome.isTerminal_endState)
    exact ⟨s, run_of_step_self (M := Sys2Proof.core) (step_of_not_running h.call hidle) n, h⟩
  | step hs _ ih =>
    obtain ⟨t, hrun, ht⟩ := ih
    exact ⟨t, (run_succ_of_step (M := Sys2Proof.core) hs).trans hrun, ht⟩

/-! ### The record between two groups -/

/-- The registers of the groups below `k`, the others empty. -/
def Record.below (r : Record) (k : Nat) : Record where
  batteryVoltage := if 0 < k then r.batteryVoltage else none
  busVoltage := if 1 < k then r.busVoltage else none
  bootCount := if 2 < k then r.bootCount else none
  temperatureC := if 3 < k then r.temperatureC else none
  humidityPct := if 3 < k then r.humidityPct else none
  dewpointC := if 3 < k then r.dewpointC else none
  heatIndexC := if 3 < k then r.heatIndexC else none
  lux := if 4 < k then r.lux else none
  probeOneTemperatureC := if 5 < k then r.probeOneTemperatureC else none
  probeTwoTemperatureC := if 6 < k then r.probeTwoTemperatureC else none

@[simp] theorem Record.below_zero (r : Record) : r.below 0 = Record.empty := rfl

@[simp] theorem Record.below_seven (r : Record) : r.below 7 = r := rfl

section
variable {attached : Bool} {bs : List Byte} {b : Byte} {k : Fin 7}

/-- A group the bitmap does not have adds no register. -/
theorem frameRecord_below_of_no_bit (hbit : b.getLsbD k.val = false) :
    (frameRecord attached bs b).below (k.val + 1) = (frameRecord attached bs b).below k.val := by
  fin_cases k <;> simp at hbit <;> simp [Record.below, frameRecord, whenBit, hbit]

/-- Record `r` after the step of group `k` on the bytes at offset `a` (R166 to R172, R179). -/
def groupRecord (attached : Bool) (bs : List Byte) (a : Nat) (r : Record) (k : Fin 7) : Record :=
  match k with
  | 0 => { r with batteryVoltage := some (voltage (frameI16 bs a)) }
  | 1 => { r with busVoltage := some (voltage (frameI16 bs a)) }
  | 2 => { r with bootCount := some (frameU8 bs a) }
  | 3 => climateRecord attached (temperature (frameI16 bs a)) (humidity (frameU16 bs (a + 2))) r
  | 4 => { r with lux := some (cfDecode (frameU24 bs a)) }
  | 5 => { r with probeOneTemperatureC := some (temperature (frameI16 bs a)) }
  | 6 => { r with probeTwoTemperatureC := some (temperature (frameI16 bs a)) }

/-- A group of the bitmap adds its registers to those of the groups below (R174). -/
theorem frameRecord_below_of_bit (hbit : b.getLsbD k.val = true) :
    (frameRecord attached bs b).below (k.val + 1) =
      groupRecord attached bs (groupPos k.val b) ((frameRecord attached bs b).below k.val) k := by
  match k with
  | 0 | 1 | 2 | 4 | 5 | 6 =>
    simp at hbit
    simp [Record.below, frameRecord, whenBit, hbit, groupRecord]
  | 3 =>
    simp at hbit
    simp [Record.below, frameRecord, whenBit, hbit, groupRecord, climateRecord]
    cases (derive _ _).2 <;> rfl

end

/-- A field step with its bytes writes the values of the bytes at the cursor (R166 to R172). -/
theorem exec_fieldInstr_of_bytes {s : State} {k : Fin 7} {bs : List Byte} (hfits : s.off + groupWidth k ≤ s.len)
    (hbytes : ∀ i < groupWidth k, Memory.byteAt s.mem (s.off + i) = some (frameU8 bs (s.off + i))) :
    exec (fieldInstr k) s = .next (State.enterNext { s with
      off := s.off + groupWidth k
      record := groupRecord s.cfg.deriveAttached bs s.off s.record k } (k.val + 1)) := by
  match k with
  | 0 =>
    simp only [groupRecord, voltage_frameI16]
    exact exec_field0_of_bytes hfits (hbytes 0 (by decide)) (hbytes 1 (by decide))
  | 1 =>
    simp only [groupRecord, voltage_frameI16]
    exact exec_field1_of_bytes hfits (hbytes 0 (by decide)) (hbytes 1 (by decide))
  | 2 => exact exec_field2_of_byte hfits (hbytes 0 (by decide))
  | 3 =>
    simp only [groupRecord, temperature_frameI16, humidity_frameU16]
    exact exec_field3_of_bytes hfits (hbytes 0 (by decide)) (hbytes 1 (by decide)) (hbytes 2 (by decide))
      (hbytes 3 (by decide))
  | 4 =>
    simp only [groupRecord, cfDecode_frameU24]
    exact exec_field4_of_bytes hfits (hbytes 0 (by decide)) (hbytes 1 (by decide)) (hbytes 2 (by decide))
  | 5 =>
    simp only [groupRecord, temperature_frameI16]
    exact exec_field5_of_bytes hfits (hbytes 0 (by decide)) (hbytes 1 (by decide))
  | 6 =>
    simp only [groupRecord, temperature_frameI16]
    exact exec_field6_of_bytes hfits (hbytes 0 (by decide)) (hbytes 1 (by decide))

theorem firstReadWidth_le (k : Fin 7) : firstReadWidth k ≤ groupWidth k := by
  revert k; decide

/-- A field step whose first read does not fit is aborted where the group begins (R166 to R172). -/
theorem exec_fieldInstr_of_short {s : State} {k : Fin 7} (hshort : s.len < s.off + firstReadWidth k) :
    exec (fieldInstr k) s = .next s.takeOutOfBounds := by
  match k with
  | 0 | 1 => exact reader_readVolt.finish_of_short hshort _
  | 2 => exact reader_readBoot.finish_of_short hshort _
  | 3 | 5 | 6 => exact reader_readTemp.finish_of_short hshort _
  | 4 => exact reader_readLux.finish_of_short hshort _

/-! ### A decode between two groups -/

/-- A frame with the right tag and bitmap `b`, on the channel of the constants `cfg`, is decoded up to group `k`: the
registers of the groups below have the values of the decode function, and no read of theirs failed. -/
structure FrameDecodedBelow (cfg : Cfg) (b : Byte) (payload : List Byte) (k : Nat) (s : State) : Prop where
  constants : s.cfg = cfg
  call : s.call = none
  mem : s.mem = Memory.ofBytes (Config.tag :: b :: payload)
  len : s.len = payload.length + 2
  ch : s.ch = cfg.channelId
  bm : s.bm = b
  off : s.off = groupPos k b
  record : s.record = (frameRecord cfg.deriveAttached (Config.tag :: b :: payload) b).below k
  fails : failOff b (payload.length + 2) = firstFail (payload.length + 2) (readsFrom k b)

/-- The bytes of the frame as the decode function reads them. -/
theorem byteAt_ofBytes_eq_frameU8 {bs : List Byte} {a : Nat} (ha : a < bs.length) :
    Memory.byteAt (Memory.ofBytes bs) a = some (frameU8 bs a) := by
  simp [frameU8, ha]

section
variable {cfg : Cfg} {b : Byte} {payload : List Byte} {s : State}

theorem FrameDecodedBelow.byteAt {k : Nat} (h : FrameDecodedBelow cfg b payload k s) {a : Nat} (ha : a < s.len) :
    Memory.byteAt s.mem a = some (frameU8 (Config.tag :: b :: payload) a) := by
  rw [h.mem]
  exact byteAt_ofBytes_eq_frameU8 (h.len ▸ ha : a < payload.length + 2)

theorem FrameDecodedBelow.setSt {k : Nat} (h : FrameDecodedBelow cfg b payload k s) (p : PState) :
    FrameDecodedBelow cfg b payload k (s.setSt p) :=
  { h with }

/-- A group the bitmap does not have is skipped. -/
theorem FrameDecodedBelow.of_no_bit {k : Fin 7} (h : FrameDecodedBelow cfg b payload k.val s)
    (hbit : b.getLsbD k.val = false) : FrameDecodedBelow cfg b payload (k.val + 1) s :=
  { h with
    off := by rw [groupPos_succ, groupBytes, hbit]; exact h.off
    record := h.record.trans (frameRecord_below_of_no_bit hbit).symm
    fails := readsFrom_of_no_bit hbit ▸ h.fails }

/-- A field step with its bytes decodes its group as the decode function does. -/
theorem FrameDecodedBelow.exec_of_fits {k : Fin 7} (h : FrameDecodedBelow cfg b payload k.val s)
    (hbit : b.getLsbD k.val = true) (hfits : s.off + groupWidth k ≤ s.len) :
    ∃ t, exec (fieldInstr k) s = .next (t.enterNext (k.val + 1)) ∧
      FrameDecodedBelow cfg b payload (k.val + 1) t := by
  refine ⟨_, exec_fieldInstr_of_bytes hfits fun i hi => h.byteAt (by omega),
    { h with off := ?_, record := ?_, fails := ?_ }⟩
  · simp [groupPos_succ, groupBytes, hbit, h.off]
  · rw [frameRecord_below_of_bit hbit, ← h.record, ← h.off, h.constants]
  · have hfirst := firstReadWidth_le k
    rw [h.off, h.len] at hfits
    rw [h.fails, firstFail_readsFrom hbit, if_neg (by omega), if_neg (by omega)]

/-- A field step without its bytes is aborted where the first failing read of the decode function begins. -/
theorem FrameDecodedBelow.exec_of_short {k : Fin 7} (h : FrameDecodedBelow cfg b payload k.val s)
    (hbit : b.getLsbD k.val = true) (hshort : s.len < s.off + groupWidth k) :
    ∃ n, exec (fieldInstr k) s = .next (s.setOff n).takeOutOfBounds ∧ 1 ≤ n ∧
      failOff b (payload.length + 2) = some n := by
  have hpos : 2 ≤ s.off := h.off ▸ Nat.le_add_right 2 _
  have hfail := h.fails.trans (firstFail_readsFrom hbit _)
  rw [← h.off, ← h.len, if_pos hshort] at hfail
  by_cases hfirst : s.len < s.off + firstReadWidth k
  · rw [if_pos hfirst] at hfail
    exact ⟨s.off, exec_fieldInstr_of_short hfirst, by omega, h.len ▸ hfail⟩
  · rw [if_neg hfirst] at hfail
    have hk : k = 3 := by
      by_contra hk
      exact hfirst (by simpa [firstReadWidth, hk] using hshort)
    subst hk
    refine ⟨s.off + 2, ?_, by omega, h.len ▸ hfail⟩
    have htemp : s.off + 2 ≤ s.len := Nat.not_lt.1 hfirst
    exact exec_field3_of_temperature_only htemp hshort (h.byteAt (by omega)) (h.byteAt (by omega))

/-- From between two groups a decode ends as the decode function says, with a step for each group left (R174). -/
theorem FrameDecodedBelow.endsWithin {n k : Nat} (hk : k + n = 7) (h : FrameDecodedBelow cfg b payload k s) :
    EndsWithin (decodeFrame cfg (Config.tag :: b :: payload) cfg.channelId) n (s.enterNext k) := by
  induction n generalizing k s with
  | zero =>
    obtain rfl : k = 7 := hk
    have hend := enterDone_endsAs h.call
    have hfails : failOff b (payload.length + 2) = none := by rw [h.fails, readsFrom_seven, firstFail_nil]
    rw [h.record, Record.below_seven, h.off] at hend
    rw [State.enterNext_of_done (nextState_seven _), decodeFrame_of_complete rfl hfails]
    exact .ended hend
  | succ n ih =>
    obtain ⟨k, rfl⟩ : ∃ j : Fin 7, j.val = k := ⟨⟨k, by omega⟩, rfl⟩
    cases hbit : b.getLsbD k.val with
    | false =>
      rw [State.enterNext_of_no_bit (h.bm ▸ hbit)]
      exact (ih (by omega) (h.of_no_bit hbit)).succ
    | true =>
      have h := h.setSt (.field k)
      have hstep := step_field h.call (k := k) rfl
      rw [State.enterNext_of_bit (h.bm ▸ hbit)]
      by_cases hfits : s.off + groupWidth k ≤ s.len
      · obtain ⟨t, hexec, ht⟩ := h.exec_of_fits hbit hfits
        exact .step (hstep.trans hexec) (ih (by omega) ht)
      · obtain ⟨m, hexec, hpos, hfail⟩ := h.exec_of_short hbit (Nat.not_le.1 hfits)
        rw [decodeFrame_of_truncated rfl hfail]
        refine .step (hstep.trans hexec) (.ended (takeOutOfBounds_endsAs h.call h.ch rfl ?_))
        exact (if_pos hpos).trans (congrArg (Memory.byteAt · 0) h.mem)

end

/-! ### A decode from START -/

theorem step_start_of_foreign_channel {s : State} {c : Call} (hch : c.ch ≠ s.cfg.channelId) :
    step (s.start c) = .next (s.start c).enterNotMine :=
  step_awaitingTag_of_foreign rfl rfl hch

/-- The step behind START goes by the first byte, on the right channel (R163). -/
theorem step_start_cons {s : State} {x : Byte} {bs : List Byte} {ch : Int} (hch : ch = s.cfg.channelId) :
    step (s.start ⟨x :: bs, ch⟩) = .next (if x ≠ Config.tag then (s.start ⟨x :: bs, ch⟩).enterNotMine
      else ((s.start ⟨x :: bs, ch⟩).setOff 1).setSt .awaitingBitmap) :=
  (step_awaitingTag_of_own rfl rfl hch).trans (exec_tagchk_of_byte (Nat.le_add_left 1 _) rfl)

/-- A foreign tag is routed elsewhere, whatever the channel (R162, R163, R180). -/
theorem step_start_of_foreign_tag {s : State} {x : Byte} {bs : List Byte} {ch : Int} (hx : x ≠ Config.tag) :
    step (s.start ⟨x :: bs, ch⟩) = .next (s.start ⟨x :: bs, ch⟩).enterNotMine := by
  by_cases hch : ch = s.cfg.channelId
  · rw [step_start_cons hch, if_pos hx]
  · exact step_start_of_foreign_channel hch

/-- Behind an accepted tag a decode ends as the decode function says: without a bitmap, or through the groups. -/
theorem awaitingBitmap_endsWithin (s : State) (bs : List Byte) :
    EndsWithin (decodeFrame s.cfg (Config.tag :: bs) s.cfg.channelId) 8
      (((s.start ⟨Config.tag :: bs, s.cfg.channelId⟩).setOff 1).setSt .awaitingBitmap) := by
  match bs with
  | [] =>
    rw [decodeFrame_tag rfl]
    exact .step ((step_awaitingBitmap rfl rfl).trans (exec_bmload_of_short (Nat.lt_succ_self 1)))
      (.ended (takeOutOfBounds_endsAs rfl rfl rfl rfl))
  | b :: payload =>
    refine .step ((step_awaitingBitmap rfl rfl).trans (exec_bmload_of_byte (b := b) (Nat.le_add_left 2 _) rfl)) ?_
    exact FrameDecodedBelow.endsWithin rfl
      { constants := rfl, call := rfl, mem := rfl, len := rfl, ch := rfl, bm := rfl, off := rfl
        record := (Record.below_zero _).symm
        fails := failOff_eq_firstFail .. }

/-- From START a decode ends as the decode function says, after at most nine steps (R174). -/
theorem start_endsWithin (s : State) (c : Call) : EndsWithin (decodeFrame s.cfg c.bytes c.ch) 9 (s.start c) := by
  obtain ⟨bs, ch⟩ := c
  by_cases hch : ch = s.cfg.channelId
  case neg =>
    rw [decodeFrame_of_foreign_channel hch]
    exact .step (step_start_of_foreign_channel hch) (.ended (enterNotMine_endsAs rfl rfl rfl))
  subst hch
  match bs with
  | [] =>
    rw [decodeFrame_nil rfl]
    exact .step ((step_awaitingTag_of_own rfl rfl rfl).trans (exec_tagchk_of_short Nat.zero_lt_one))
      (.ended (takeOutOfBounds_endsAs rfl rfl rfl rfl))
  | x :: bs =>
    by_cases hx : x = Config.tag
    · subst hx
      exact .step (step_start_cons rfl) (awaitingBitmap_endsWithin s bs)
    · rw [decodeFrame_of_foreign_tag hx]
      exact .step (step_start_of_foreign_tag hx) (.ended (enterNotMine_endsAs rfl rfl rfl))

/-- A call that is taken runs to an end with the result of the decode function (R174). -/
theorem run_call {s : State} {c : Call} (hcall : s.call = some c) (hidle : s.st.running = false) :
    ∃ t, Host.Core.run Sys2Proof.core 10 s = .next t ∧ EndsAs (decodeFrame s.cfg c.bytes c.ch) t :=
  (EndsWithin.step (step_of_call hcall hidle) (start_endsWithin s c)).run

theorem EndsAs.isTerminal {r : Result} {t : State} (h : EndsAs r t) : isTerminal t.st = true := by
  rw [h.st]
  exact r.outcome.isTerminal_endState

/-- Settles O46: the run ends in a state that shows the result of the decode function. -/
theorem wholeDecodeEqualsTheFunction : Obligations.WholeDecodeEqualsTheFunction := by
  intro s c hcall hidle
  obtain ⟨t, hrun, ht⟩ := run_call hcall hidle
  exact ⟨t, hrun, ht.isTerminal, ht.call, ht.result⟩

/-! ### The bound on the steps -/

/-- In the invariant a decode that has just started is one that START just made (R241). -/
theorem exists_eq_start_of_inv {s : State} (hinv : Inv s) (hcall : s.call = none) (hst : s.st = .awaitingTag) :
    ∃ c, s = s.start c := by
  obtain ⟨hmem, hcur, hrec, hout, -⟩ := hinv
  simp only [CursorOk, RecordOk, OutputsOk, hst] at hcur hrec hout
  obtain ⟨-, -, hoff⟩ := hcur
  obtain ⟨hstatus, hfinal, hch, hvalid, htag, hcause⟩ := hout
  obtain ⟨hbytes, hlen⟩ := Memory.eq_ofBytes_of_complete hmem
  refine ⟨⟨s.mem.map Prod.snd, s.ch⟩, ?_⟩
  obtain ⟨⟩ := s
  simp only [State.start, State.mk.injEq, true_and, and_true]
  exact ⟨hcall, hbytes, hlen.symm, hst, hoff, hrec, hstatus, hfinal, hch, hvalid, htag, hcause⟩

/-- What every step keeps, a run keeps. -/
theorem run_keeps {M : Host.Core} {P : M.State → Prop} (hstep : ∀ s t, P s → M.step s = .next t → P t) {n : Nat}
    {s t : M.State} (hs : P s) (hrun : M.run n s = .next t) : P t := by
  induction n generalizing s with
  | zero => cases hrun; exact hs
  | succ n ih =>
    rw [Host.Core.run] at hrun
    split at hrun
    next u hu => exact ih (hstep s u hs hu) hrun
    next => cases hrun
    next => cases hrun

/-- Settles O42: the nine steps from START, which keep the invariant and its bound on the cursor. -/
theorem decodeEndsWithinNineSteps : Obligations.DecodeEndsWithinNineSteps := by
  intro s hinv hcall hst
  obtain ⟨c, hc⟩ := exists_eq_start_of_inv hinv hcall hst
  obtain ⟨t, hrun, ht⟩ := (start_endsWithin s c).run
  rw [← hc] at hrun
  obtain ⟨-, ⟨-, hmax, -⟩, -⟩ : Inv t := run_keeps (M := Sys2Proof.core) invariantIsKeptByEveryStep hinv hrun
  exact ⟨9, t, Nat.le_refl 9, hrun, ht.isTerminal, hmax⟩

/-! ### What the outcome depends on -/

/-- Two ends with the same result have the same outputs (R175). -/
theorem EndsAs.unique {r : Result} {t u : State} (ht : EndsAs r t) (hu : EndsAs r u) :
    t.result = u.result ∧ t.record = u.record ∧ t.st = u.st ∧ t.off = u.off :=
  ⟨ht.result.trans hu.result.symm, ht.record.trans hu.record.symm, ht.st.trans hu.st.symm, ht.off.trans hu.off.symm⟩

/-- Settles O47: the result of the decode function, which is not given the past. -/
theorem outcomeForgetsEarlierDecodes : Obligations.OutcomeForgetsEarlierDecodes := by
  intro s₁ s₂ t₁ t₂ c hcall₁ hcall₂ hidle₁ hidle₂ hcfg hrun₁ hrun₂
  obtain ⟨u₁, hu₁, hend₁⟩ := run_call hcall₁ hidle₁
  obtain ⟨u₂, hu₂, hend₂⟩ := run_call hcall₂ hidle₂
  obtain rfl : u₁ = t₁ := next_injective (hrun₁.symm.trans hu₁)
  obtain rfl : u₂ = t₂ := next_injective (hrun₂.symm.trans hu₂)
  obtain ⟨hresult, hrecord, -, -⟩ := hend₁.unique (hcfg ▸ hend₂)
  exact ⟨hresult, by rw [hend₁.result]; rfl, hrecord⟩

/-- Settles O50: the gates see the foreign channel or tag in the first step behind START. -/
theorem foreignFramesAreNotMine : Obligations.ForeignFramesAreNotMine := by
  intro s c hcall hidle hforeign
  have hroute : step (s.start c) = .next (s.start c).enterNotMine := by
    obtain ⟨bs, ch⟩ := c
    rcases hforeign with hch | ⟨x, rest, rfl, hx⟩
    · exact step_start_of_foreign_channel hch
    · exact step_start_of_foreign_tag hx
  have hrun : Host.Core.run Sys2Proof.core 2 s = .next (s.start c).enterNotMine :=
    calc Host.Core.run Sys2Proof.core 2 s
        = Host.Core.run Sys2Proof.core 1 (s.start c) :=
          run_succ_of_step (M := Sys2Proof.core) (step_of_call hcall hidle)
      _ = _ := run_succ_of_step (M := Sys2Proof.core) hroute
  exact ⟨_, hrun, rfl, rfl, rfl, rfl, ⟨rfl, rfl, rfl, rfl⟩, rfl⟩

/-- Settles O48: with all the bytes its bitmap promises no read of the frame fails, and the record does not depend on
the bytes behind them. -/
theorem trailingBytesAreNotRead : Obligations.TrailingBytesAreNotRead := by
  intro s b payload extra hidle hneed
  have hend (bytes : List Byte) (hbytes : need b ≤ bytes.length + 2) :=
    decodeFrame_of_complete (cfg := s.cfg) rfl (failOff_of_need_le hbytes)
  have hlong : need b ≤ (payload ++ extra).length + 2 := by rw [List.length_append]; omega
  obtain ⟨t, hrun, ht⟩ := run_call
    (s := { s with call := some ⟨Config.tag :: b :: payload, s.cfg.channelId⟩ }) rfl hidle
  obtain ⟨u, hrun', hu⟩ := run_call
    (s := { s with call := some ⟨Config.tag :: b :: (payload ++ extra), s.cfg.channelId⟩ }) rfl hidle
  rw [hend payload hneed] at ht
  rw [hend (payload ++ extra) hlong, frameRecord_append hneed] at hu
  obtain ⟨-, hrecord, -, -⟩ := ht.unique hu
  exact ⟨t, u, hrun, hrun', ht.st, hu.st, ht.offFinal, hu.offFinal, hrecord⟩

/-- Settles O49: the decode function answers the same. -/
theorem reservedBitmapBitIsIgnored : Obligations.ReservedBitmapBitIsIgnored := by
  intro s x b rest ch hidle
  obtain ⟨t, hrun, ht⟩ := run_call (s := { s with call := some ⟨x :: b :: rest, ch⟩ }) rfl hidle
  obtain ⟨u, hrun', hu⟩ := run_call (s := { s with call := some ⟨x :: (b ^^^ 0x80) :: rest, ch⟩ }) rfl hidle
  rw [decodeFrame_flip_reserved] at hu
  obtain ⟨hresult, -, hst, hoff⟩ := ht.unique hu
  exact ⟨t, u, hrun, hrun', hresult, hst, hoff⟩

end Sys2Proof.Machine
end

section
/-! PROOFS. The derived quantities (44_derived_quantities.md): where the heat index is absent, the clamp of the
humidity, the shape of `Derive`, and how near an arithmetic that follows the formulas comes to the real numbers. -/

namespace Sys2Proof

/-- On the arguments of FIELD3 a formula's value is off by at most a thousandth of any bound, at least one, on its
exact value (R200). -/
theorem DeriveArith.FollowsFormulas.abs_fl_sub_le {A : DeriveArith} (hA : A.FollowsFormulas) (step : DeriveStep)
    {exact t rh c : Rat} (ht : -200 ≤ t ∧ t ≤ 300) (hrh : 0 ≤ rh ∧ rh ≤ 100) (hc : 1 ≤ c) (hexact : |exact| ≤ c) :
    |A.fl step exact t rh - exact| ≤ c / 1000 := by
  obtain ⟨-, -, hfl⟩ := hA
  calc |A.fl step exact t rh - exact| ≤ max 1 |exact| / 1000 := hfl step exact t rh ht.1 ht.2 hrh.1 hrh.2
    _ ≤ c / 1000 := by gcongr; exact max_le hc hexact

/-- The computed logarithm of one half is near `-log 2` (R200). -/
theorem DeriveArith.FollowsFormulas.ln_half_mem {A : DeriveArith} (hA : A.FollowsFormulas) :
    -(695 / 1000) ≤ A.ln (1 / 2) ∧ A.ln (1 / 2) ≤ -(692 / 1000) := by
  obtain ⟨hln, -, -⟩ := hA
  have hlog : Real.log ((1 / 2 : Rat) : ℝ) = -Real.log 2 := by
    rw [← Real.log_inv]; norm_num
  have hnear := hln (1 / 2) (by norm_num) (by norm_num)
  rw [hlog, abs_le] at hnear
  have hlow : ((-(695 / 1000) : Rat) : ℝ) ≤ A.ln (1 / 2) := by
    push_cast; linarith [Real.log_two_lt_d9, hnear.1]
  have hhigh : (A.ln (1 / 2) : ℝ) ≤ ((-(692 / 1000) : Rat) : ℝ) := by
    push_cast; linarith [Real.log_two_gt_d9, hnear.2]
  exact ⟨by exact_mod_cast hlow, by exact_mod_cast hhigh⟩

end Sys2Proof

namespace Sys2Proof.Machine

/-! ### The heat index and its domain -/

/-- Inside the domain the heat index is the simple formula or the corrected regression, each where it applies (R193,
R196). -/
theorem heatIndexF_of_domain (A : DeriveArith) {t rh : Rat} (h : heatDomain t rh = true) :
    heatIndexF A t rh = if heatSum A t rh < 160 then some (heatEasy A t rh)
      else if heatCorrected A t rh < 1835 / 10 then some (heatCorrected A t rh) else none := by
  rw [heatIndexF, if_pos h]

/-- Outside the domain the heat index is absent (R192). -/
theorem heatIndexF_of_outside (A : DeriveArith) {t rh : Rat}
    (h : roundInt t < 76 ∨ 126 < roundInt t ∨ rh < 0 ∨ 100 < rh) : heatIndexF A t rh = none := by
  refine heatIndexF_of_not_domain A (Bool.eq_false_iff.2 fun hd => ?_)
  obtain ⟨⟨hlow, hhigh⟩, hrh0, hrh100⟩ := (heatDomain_iff t rh).1 hd
  rcases h with h | h | h | h
  · exact absurd hlow (not_le.2 h)
  · exact absurd hhigh (not_le.2 h)
  · exact absurd hrh0 (not_le.2 h)
  · exact absurd hrh100 (not_le.2 h)

/-- Outside 75.5 to 126.5 °F the heat index is absent, whatever the free tie rule (R192). -/
theorem heatIndexF_of_out_of_range (A : DeriveArith) {t : Rat} (rh : Rat) (h : t < 151 / 2 ∨ 253 / 2 < t) :
    heatIndexF A t rh = none := by
  refine Option.eq_none_iff_forall_ne_some.2 fun f hf => ?_
  obtain ⟨hlow, hhigh⟩ := heatIndexF_range hf
  rcases h with h | h <;> linarith

/-- An absent heat index passes through the conversion (R197). -/
theorem heatIndexC_of_none {A : DeriveArith} {t rh : Rat} (h : heatIndexF A t rh = none) :
    heatIndexC A t rh = none := by
  rw [heatIndexC, h, Option.map_none]

/-- A defined heat index is converted back to Celsius (R197). -/
theorem heatIndexC_of_some {A : DeriveArith} {t rh f : Rat} (h : heatIndexF A t rh = some f) :
    heatIndexC A t rh = some ((f - 32) * 5 / 9) := by
  rw [heatIndexC, h, Option.map_some]

/-! ### The clamp of the humidity and the Magnus form -/

theorem clampedHumidity_of_le_one {rh : Rat} (h : rh ≤ 1) : clampedHumidity rh = 1 / 100 := by
  have hmax : max (1 / 100) (rh / 100) = 1 / 100 := max_eq_left (by linarith)
  rw [clampedHumidity, hmax]
  norm_num

theorem clampedHumidity_of_mem {rh : Rat} (h1 : 1 ≤ rh) (h100 : rh ≤ 100) : clampedHumidity rh = rh / 100 := by
  rw [clampedHumidity, max_eq_right (by linarith), min_eq_right (by linarith)]

theorem clampedHumidity_of_hundred_le {rh : Rat} (h : 100 ≤ rh) : clampedHumidity rh = 1 := by
  rw [clampedHumidity, max_eq_right (by linarith), min_eq_left (by linarith)]

/-- The dewpoint is the Magnus form with `c1 = 6076/25` and `c2 = 141/8`, in lowest terms (R191). -/
theorem dewpoint_eq_magnus_form (A : DeriveArith) (t rh : Rat) :
    dewpoint A t rh = A.fl .dewpoint
      ((6076 / 25) * (A.ln (clampedHumidity rh) + t * (141 / 8) / (t + 6076 / 25)) /
        (141 / 8 - A.ln (clampedHumidity rh) - t * (141 / 8) / (t + 6076 / 25))) t rh := by
  have hc1 : (24304 / 100 : Rat) = 6076 / 25 := by norm_num
  have hc2 : (17625 / 1000 : Rat) = 141 / 8 := by norm_num
  rw [dewpoint, magnus, hc1, hc2, sub_add_eq_sub_sub]

/-- Settles O56: the domain and the branches of the heat index, the clamp and the Magnus form, each by its lemma. -/
theorem heatIndexIsAbsentOutsideItsDomain : Obligations.HeatIndexIsAbsentOutsideItsDomain := by
  refine ⟨fun A t rh h => ?_, fun A t rh h => heatIndexF_of_out_of_range A rh h, fun A t rh hlow hhigh h0 h100 => ?_,
    fun rh => ⟨clampedHumidity_of_le_one, clampedHumidity_of_mem, clampedHumidity_of_hundred_le⟩,
    dewpoint_eq_magnus_form⟩
  · have hF := heatIndexF_of_outside A h
    exact ⟨hF, heatIndexC_of_none hF⟩
  · have hlimit : (1835 / 10 : Rat) = 367 / 2 := by norm_num
    rw [heatIndexF_of_domain A ((heatDomain_iff t rh).2 ⟨⟨hlow, hhigh⟩, h0, h100⟩), hlimit]

/-! ### The shape of `Derive` -/

/-- On finite arguments `Derive` is the dewpoint and the heat index of the converted temperature, as tagged values
(R190). -/
theorem deriveWith_finite (A : DeriveArith) (st sr : Bool) (qt qr : Rat) :
    deriveWith A (.finite st qt) (.finite sr qr) =
      (derivedValue (A.dewpointZeroSign (signedValue st qt) (signedValue sr qr))
          (dewpoint A (signedValue st qt) (signedValue sr qr)),
        (heatIndexC A (celsiusToFahrenheit (signedValue st qt)) (signedValue sr qr)).map
          (derivedValue (A.heatIndexZeroSign (signedValue st qt) (signedValue sr qr)))) := rfl

/-- Without a heat index in Fahrenheit `Derive` gives none (R197). -/
theorem deriveWith_snd_of_none {A : DeriveArith} {st sr : Bool} {qt qr : Rat}
    (h : heatIndexF A (celsiusToFahrenheit (signedValue st qt)) (signedValue sr qr) = none) :
    (deriveWith A (.finite st qt) (.finite sr qr)).2 = none := by
  rw [deriveWith_finite, heatIndexC_of_none h, Option.map_none]

/-- The range of the heat index, in Celsius (R192, R198). -/
theorem celsiusToFahrenheit_out_of_range {t : Rat} (h : t < 145 / 6 ∨ 105 / 2 < t) :
    celsiusToFahrenheit t < 151 / 2 ∨ 253 / 2 < celsiusToFahrenheit t := by
  unfold celsiusToFahrenheit
  rcases h with h | h
  · left; linarith
  · right; linarith

/-- Settles O57: both results of `Derive` denote their numbers, and an absent heat index passes through. -/
theorem deriveConvertsBothWays : Obligations.DeriveConvertsBothWays := by
  refine ⟨fun t => rfl, fun x y => rfl, fun A st sr qt qr => ?_, fun A st sr qt qr f hf => ?_,
    fun A st sr qt qr h => deriveWith_snd_of_none h, fun A st sr qt qr h => ?_⟩
  · exact derivedValue_denotes _ _
  · obtain ⟨sgn, hvalue, hdenotes⟩ := derivedValue_denotes
      (A.heatIndexZeroSign (signedValue st qt) (signedValue sr qr)) ((f - 32) * 5 / 9)
    refine ⟨sgn, ?_, hdenotes⟩
    rw [deriveWith_finite, celsiusToFahrenheit, heatIndexC_of_some hf, Option.map_some, hvalue]
  · exact deriveWith_snd_of_none (heatIndexF_of_out_of_range A _ (celsiusToFahrenheit_out_of_range h))

/-! ### The document's test properties -/

/-- The simple formula at 76 °F and 50 % (R202). -/
theorem heatEasy_76_50_near {A : DeriveArith} (hA : A.FollowsFormulas) :
    |heatEasy A 76 50 - 7565 / 100| ≤ 1 / 10 := by
  have hexact : (1 / 2 * (76 + 61 + (76 - 68) * (12 / 10) + 50 * (94 / 1000)) : Rat) = 7565 / 100 := by norm_num
  have hfl := hA.abs_fl_sub_le .heatEasy (exact := 7565 / 100) (t := 76) (rh := 50) (c := 100) (by norm_num)
    (by norm_num) (by norm_num) (by norm_num [abs_le])
  rw [heatEasy, hexact]
  exact hfl.trans (by norm_num)

/-- The sum at 76 °F and 50 % stays far below the limit of the simple formula (R193). -/
theorem heatSum_76_50_lt {A : DeriveArith} (hA : A.FollowsFormulas) : heatSum A 76 50 < 160 := by
  obtain ⟨hlow, hhigh⟩ := abs_le.1 (heatEasy_76_50_near hA)
  have hfl := hA.abs_fl_sub_le .heatSum (exact := heatEasy A 76 50 + 76) (t := 76) (rh := 50) (c := 200)
    (by norm_num) (by norm_num) (by norm_num) (abs_le.2 ⟨by linarith, by linarith⟩)
  rw [heatSum]
  linarith [(abs_le.1 hfl).2]

/-- At 76 °F and 50 % the heat index is the simple formula's value (R202). -/
theorem heatIndexF_76_50 {A : DeriveArith} (hA : A.FollowsFormulas) :
    heatIndexF A 76 50 = some (heatEasy A 76 50) := by
  have hround : roundInt 76 = 76 := roundInt_intCast 76
  have hdomain : heatDomain 76 50 = true := (heatDomain_iff 76 50).2 (by norm_num [hround])
  rw [heatIndexF_of_domain A hdomain, if_pos (heatSum_76_50_lt hA)]

/-- The dewpoint of 20 °C and 50 %: what the error of the logarithm makes of the Magnus form, and one rounding of that
(R202). -/
theorem dewpoint_20_50_near {A : DeriveArith} (hA : A.FollowsFormulas) : |dewpoint A 20 50 - 93 / 10| ≤ 1 / 10 := by
  have hclamp : clampedHumidity 50 = 1 / 2 := by
    rw [clampedHumidity_of_mem (by norm_num) (by norm_num)]; norm_num
  obtain ⟨hln, hln'⟩ := hA.ln_half_mem
  have hg : 645 / 1000 ≤ magnus A 20 50 ∧ magnus A 20 50 ≤ 6482 / 10000 := by
    rw [magnus, hclamp]
    constructor <;> linarith
  rw [dewpoint]
  generalize magnus A 20 50 = g at hg ⊢
  obtain ⟨hlow, hhigh⟩ := hg
  have hden : 0 < 17625 / 1000 - g := by linarith
  have hexact : 923 / 100 ≤ 24304 / 100 * g / (17625 / 1000 - g) := by
    rw [le_div_iff₀ hden]; linarith
  have hexact' : 24304 / 100 * g / (17625 / 1000 - g) ≤ 93 / 10 := by
    rw [div_le_iff₀ hden]; linarith
  generalize 24304 / 100 * g / (17625 / 1000 - g) = exact at hexact hexact' ⊢
  have hfl := hA.abs_fl_sub_le .dewpoint (exact := exact) (t := 20) (rh := 50) (c := 10) (by norm_num) (by norm_num)
    (by norm_num) (abs_le.2 ⟨by linarith, by linarith⟩)
  obtain ⟨hfl, hfl'⟩ := abs_le.1 hfl
  exact abs_le.2 ⟨by linarith, by linarith⟩

/-- Settles O58: the bounds of an arithmetic that follows the formulas at the document's points; 130 °F lies outside
the domain. -/
theorem derivedQuantitiesHaveTheDocumentsProperties : Obligations.DerivedQuantitiesHaveTheDocumentsProperties := by
  refine ⟨fun A hA => ⟨heatIndexF_76_50 hA, heatEasy_76_50_near hA, dewpoint_20_50_near hA⟩, fun A rh => ?_,
    clampedHumidity_of_le_one (by norm_num)⟩
  have hF : heatIndexF A 130 rh = none := heatIndexF_of_out_of_range A rh (by norm_num)
  exact ⟨hF, heatIndexC_of_none hF⟩

end Sys2Proof.Machine
end

section
/-! PROOFS. The exception and the outcomes (60_exceptions.md): every failure is the one abort (R213, R214, R216), a
decode fails exactly when its frame is truncated (R211, R218), and the numeric codes of the outcomes (R219). -/

namespace Sys2Proof.Machine

/-! ### The one abort -/

/-- An instruction that enters `Failed` took OutOfBounds, at the cursor or, for FIELD3, two bytes behind it (R213). -/
theorem EffectKind.abortedFrom {i : Instr} {s t : State} (h : EffectKind s i t) (hs : s.st ≠ .failed)
    (ht : t.st = .failed) : AbortedFrom s t ∨ (i = .field3 ∧ AbortedFrom (s.setOff (s.off + 2)) t) := by
  cases h with
  | aborted => exact .inl (takeOutOfBounds_abortedFrom s)
  | abortedAtHumidity => exact .inr ⟨rfl, takeOutOfBounds_abortedFrom _⟩
  | foreignChannel | foreignTag | ownTag => cases ht
  | ownChannel | micro => exact absurd ht hs
  | bitmap | group => exact absurd ht (by simp [nextState_ne_failed])

/-- A failing instruction does not move the cursor back (R106). -/
theorem off_le_of_exec_failed {i : Instr} {s t : State} (h : exec i s = .next t) (hs : s.st ≠ .failed)
    (ht : t.st = .failed) : s.off ≤ t.off := by
  obtain ⟨-, -, hoff⟩ := cursorMovesByTheConsumedWidth i s t h
  rcases hoff ht hs with hoff | ⟨-, hoff⟩ <;> omega

@[simp] theorem Record.get_empty (f : Field) : Record.empty.get f = none := by
  cases f <;> rfl

theorem SameInputs.trans {s t u : State} (hst : SameInputs s t) (htu : SameInputs t u) : SameInputs s u := by
  obtain ⟨hcfg, hcall, hmem, hlen, hch⟩ := hst
  obtain ⟨hcfg', hcall', hmem', hlen', hch'⟩ := htu
  exact ⟨hcfg'.trans hcfg, hcall'.trans hcall, hmem'.trans hmem, hlen'.trans hlen, hch'.trans hch⟩

section
variable {s t : State} (hrun : s.st.running = true) (h : step s = .next t)
include hrun h

/-- While a decode is running the step is the automaton's (R161, R241). -/
theorem runSelected_of_running_step : runSelected s.st (selected s.st) s = .next t := by
  rcases step_cases h with ⟨c, -, hidle, -⟩ | ⟨-, hsel⟩
  · simp [hrun] at hidle
  · exact hsel

/-- A step of a running decode writes no input (R20, R28, R56). -/
theorem sameInputs_of_running_step : SameInputs s t :=
  runSelected_keeps (P := SameInputs s) (fun _ _ _ hs hexec => SameInputs.trans hs (exec_effectKind hexec).sameInputs)
    ⟨rfl, rfl, rfl, rfl, rfl⟩ (runSelected_of_running_step hrun h)

/-- On a frame that is not empty the tag was read before the decode failed (R163, R218). -/
theorem one_le_off_of_step_failed (hinv : Inv s) (ht : t.st = .failed) (hlen : 0 < s.len) : 1 ≤ t.off := by
  have hsel := runSelected_of_running_step hrun h
  cases hst : s.st with
  | awaitingTag =>
    rw [hst] at hsel
    rcases header_step_cases hst hsel with rfl | ⟨-, hexec⟩
    · cases ht
    · obtain ⟨hmem, ⟨-, -, hoff⟩, -⟩ := hinv
      rw [hst] at hoff
      obtain ⟨b, hb⟩ := Memory.byteAt_isSome_of_complete hmem hlen
      rw [exec_tagchk_of_byte (hoff ▸ hlen) hb] at hexec
      rw [next_injective hexec] at ht
      split at ht <;> cases ht
  | awaitingBitmap =>
    rw [hst, selected, runSelected_singleton] at hsel
    obtain ⟨-, ⟨-, -, hoff⟩, -⟩ := hinv
    rw [hst] at hoff
    exact hoff ▸ off_le_of_exec_failed hsel (by simp [hst]) ht
  | field k =>
    rw [hst, selected, runSelected_singleton] at hsel
    have hoff : 2 ≤ s.off := off_eq_groupPos_of_inv hinv hst ▸ Nat.le_add_right 2 _
    have hle := off_le_of_exec_failed hsel (by simp [hst]) ht
    omega
  | idle | done | notMine | failed => simp [hst, PState.running] at hrun

end

/-- In the invariant the record is empty where the decode ended without one (R216). -/
theorem record_eq_empty_of_inv {s : State} (hinv : Inv s) (hst : s.st = .failed ∨ s.st = .notMine) :
    s.record = Record.empty := by
  obtain ⟨-, -, hrec, -⟩ := hinv
  rcases hst with hst | hst <;> simpa only [RecordOk, hst] using hrec

/-- Settles O36: the abort by the kind of effect; the diagnostic and the empty record by the invariant, which the step
keeps, and the availability of the tag by where the cursor is. -/
theorem everyFailureIsTheOneAbort : Obligations.EveryFailureIsTheOneAbort := by
  refine ⟨fun i s t h => (exec_effectKind h).abortedFrom, fun s t hinv hrun h ht => ?diagnostic,
    fun s t hinv h ht f => ?record⟩
  case diagnostic =>
    obtain ⟨hcfg, -, -, hlen, -⟩ := sameInputs_of_running_step hrun h
    obtain ⟨-, ⟨hin, -⟩, -, hout, -⟩ := invariantIsKeptByEveryStep s t hinv h
    simp only [OutputsOk, ht] at hout
    obtain ⟨-, -, hch, hvalid, htag, -⟩ := hout
    refine ⟨hcfg ▸ hch, hvalid, ?_, htag⟩
    have hpos := one_le_off_of_step_failed hrun h hinv ht
    rw [hvalid, Option.some.injEq, decide_eq_false_iff_not]
    constructor <;> intro <;> omega
  case record =>
    rw [record_eq_empty_of_inv (invariantIsKeptByEveryStep s t hinv h) ht]
    exact ⟨Record.valid_empty f, Record.get_empty f⟩

/-! ### Truncation -/

/-- The last read of a group of the bitmap ends where the group ends (R73, R174). -/
theorem exists_mem_frameReads_end {b : Byte} {k : Fin 7} (hbit : b.getLsbD k.val = true) :
    ∃ r ∈ frameReads b, r.1 + r.2 = groupPos k.val b + groupWidth k := by
  by_cases hk : k = 3
  · subst hk
    exact ⟨(groupPos 3 b + 2, 2), List.mem_flatMap.2 ⟨3, mem_groups 3, by rw [if_pos hbit]; simp⟩, rfl⟩
  · exact ⟨(groupPos k.val b, groupWidth k),
      List.mem_flatMap.2 ⟨k, mem_groups k, by rw [if_pos hbit, if_neg hk]; simp⟩, rfl⟩

/-- When no read fails, no group begins behind the frame (R174). -/
theorem groupPos_le_of_failOff_eq_none {b : Byte} {len : Nat} (hlen : 2 ≤ len) (hfail : failOff b len = none)
    {k : Nat} (hk : k ≤ 7) : groupPos k b ≤ len := by
  have hreads : ∀ r ∈ frameReads b, r.1 + r.2 ≤ len := by simpa [failOff] using hfail
  induction k with
  | zero => simpa [groupPos, bytesBelow] using hlen
  | succ k ih =>
    rw [groupPos_succ ⟨k, hk⟩, groupBytes]
    split
    next hbit =>
      obtain ⟨r, hr, hend⟩ := exists_mem_frameReads_end hbit
      exact hend ▸ hreads r hr
    next => exact ih (by omega)

/-- Behind the header a read fails exactly when the frame is shorter than the bitmap needs (R78, R174). -/
theorem failOff_eq_none_iff {b : Byte} {len : Nat} (hlen : 2 ≤ len) : failOff b len = none ↔ need b ≤ len :=
  ⟨fun h => groupPos_le_of_failOff_eq_none hlen h (Nat.le_refl 7), failOff_of_need_le⟩

/-- The decode function answers the diagnostic of truncation exactly on the frames R211 names. -/
theorem decodeFrame_failed_iff (cfg : Cfg) (bs : List Byte) (ch : Int) :
    (decodeFrame cfg bs ch).outcome.endState = .failed ↔
      ch = cfg.channelId ∧ (bs = [] ∨ bs = [Config.tag] ∨
        ∃ (b : Byte) (payload : List Byte), bs = Config.tag :: b :: payload ∧ payload.length + 2 < need b) := by
  by_cases hch : ch = cfg.channelId
  case neg => simp [decodeFrame_of_foreign_channel hch, hch, Decoded.endState]
  subst hch
  match bs with
  | [] => exact iff_of_true (by rw [decodeFrame_nil rfl]; rfl) ⟨rfl, .inl rfl⟩
  | x :: rest =>
    by_cases hx : x = Config.tag
    case neg => simp [decodeFrame_of_foreign_tag hx, hx, Decoded.endState]
    subst hx
    match rest with
    | [] => exact iff_of_true (by rw [decodeFrame_tag rfl]; rfl) ⟨rfl, .inr (.inl rfl)⟩
    | b :: payload =>
      have hneed := failOff_eq_none_iff (b := b) (Nat.le_add_left 2 payload.length)
      cases hfail : failOff b (payload.length + 2) with
      | some n =>
        have hshort : payload.length + 2 < need b := by simpa [hfail] using hneed
        exact iff_of_true (by rw [decodeFrame_of_truncated rfl hfail]; rfl)
          ⟨rfl, .inr (.inr ⟨b, payload, rfl, hshort⟩)⟩
      | none =>
        have hlong : ¬ payload.length + 2 < need b := Nat.not_lt.2 (hneed.1 hfail)
        simp [decodeFrame_of_complete rfl hfail, hlong, Decoded.endState]

/-- Settles O51: the run ends as the decode function says, which fails on the truncated frames. -/
theorem truncationIsExactlyWhenItFails : Obligations.TruncationIsExactlyWhenItFails := by
  intro s t c hcall hidle hrun
  obtain ⟨u, hu, hend⟩ := run_call hcall hidle
  obtain rfl : u = t := next_injective (hrun.symm.trans hu)
  rw [hend.st]
  exact decodeFrame_failed_iff s.cfg c.bytes c.ch

/-! ### The codes -/

theorem statusCode_injective : Function.Injective statusCode := by
  intro a b h
  cases a <;> cases b <;> simp [statusCode] at h ⊢

/-- Settles O53: the codes by the definition, and that no two outcomes share one by cases. -/
theorem outcomeCodesAreTheTables : Obligations.OutcomeCodesAreTheTables :=
  ⟨rfl, rfl, rfl, rfl, rfl, fun _ _ h => statusCode_injective h⟩

end Sys2Proof.Machine
end

section
/-! PROOFS. Reset, START and the progress of a decode (70_reset_and_hazards.md R240, R241, R247): in the invariant the
step of a running decode has its bytes or takes OutOfBounds, and either way the parser state goes forward. -/

namespace Sys2Proof.Machine

/-! ### Reset and START -/

/-- Settles O37: the reset table's values, on a record that is empty. -/
theorem resetLeavesTheBlockIdle : Obligations.ResetLeavesTheBlockIdle :=
  ⟨rfl, rfl, Record.valid_empty, Record.get_empty, rfl, rfl, ⟨rfl, rfl, rfl, rfl⟩, rfl⟩

/-- A presented call is refused while a decode is running (R241, U9). -/
theorem step_of_call_of_running {s : State} {c : Call} (hcall : s.call = some c) (hrun : s.st.running = true) :
    step s = .refused .startWhileRunning := by
  simp [step, stepOnce, hcall, acceptCall, hrun]

/-- Settles O44: where no decode is running the step is START, and where one is it is refused. -/
theorem startClearsOrIsRefused : Obligations.StartClearsOrIsRefused := by
  refine fun s c hcall => ⟨fun hidle => ⟨s.start c, step_of_call hcall hidle, ?_⟩, step_of_call_of_running hcall⟩
  exact ⟨rfl, rfl, Record.valid_empty, rfl, rfl, rfl, ⟨rfl, rfl, rfl, rfl⟩, rfl, rfl,
    Memory.byteAt_ofBytes c.bytes, rfl, rfl, rfl, rfl⟩

/-! ### Forward in the order of the parser states -/

/-- A decode goes on from `s` to `t`: the parser state strictly forward in its order, the cursor not back (R22,
R247). -/
structure MovesForward (s t : State) : Prop where
  rank : stateRank s.st < stateRank t.st
  off : s.off ≤ t.off

theorem stateRank_of_isTerminal {p : PState} (h : isTerminal p = true) : stateRank p = 10 := by
  cases p with
  | done | notMine | failed => rfl
  | idle | awaitingTag | awaitingBitmap | field => cases h

theorem stateRank_lt_of_running {p : PState} (h : p.running = true) : stateRank p < 10 := by
  cases p with
  | awaitingTag | awaitingBitmap => decide
  | field k => exact Nat.add_lt_add_left k.isLt 3
  | idle | done | notMine | failed => cases h

/-- The next group is not below the one asked for, and `Done` is behind all groups (R165, R22). -/
theorem le_stateRank_nextState {k : Nat} (hk : k ≤ 7) (b : Byte) : 3 + k ≤ stateRank (nextState k b) := by
  rcases nextState_cases k b with ⟨j, hkj, -, -, hnext⟩ | ⟨-, hnext⟩
  · rw [hnext]; exact Nat.add_le_add_left hkj 3
  · rw [hnext]; exact Nat.add_le_add_left hk 3

section
variable {s t : State}

/-- To end a running decode is to go forward. -/
theorem MovesForward.of_end (hrun : s.st.running = true) (hend : isTerminal t.st = true) (hoff : s.off ≤ t.off) :
    MovesForward s t :=
  ⟨stateRank_of_isTerminal hend ▸ stateRank_lt_of_running hrun, hoff⟩

/-- To go on to the next group, or to `Done`, is to go forward from what is before that group. -/
theorem MovesForward.of_enterNext {k : Nat} (hk : k ≤ 7) (hrank : stateRank s.st < 3 + k) (hoff : s.off ≤ t.off) :
    MovesForward s (t.enterNext k) where
  rank := by
    rw [State.enterNext_st]
    exact hrank.trans_le (le_stateRank_nextState hk t.bm)
  off := by rwa [State.enterNext_off]

end

/-! ### The step in each parser state -/

/-- On a complete buffer a field step completes: it has its bytes, or one of its reads takes OutOfBounds (R100,
R213). -/
theorem exec_fieldInstr_completes {s : State} (k : Fin 7) (hmem : Memory.complete s.mem s.len = true) :
    ∃ t, exec (fieldInstr k) s = .next t := by
  obtain ⟨hbuf, hlen⟩ := Memory.eq_ofBytes_of_complete hmem
  have hbyte {a : Nat} (ha : a < s.len) : Memory.byteAt s.mem a = some (frameU8 (s.mem.map Prod.snd) a) :=
    (congrArg (Memory.byteAt · a) hbuf).trans (byteAt_ofBytes_eq_frameU8 (hlen ▸ ha))
  by_cases hfits : s.off + groupWidth k ≤ s.len
  · exact ⟨_, exec_fieldInstr_of_bytes hfits fun i hi => hbyte (by omega)⟩
  by_cases hfirst : s.len < s.off + firstReadWidth k
  · exact ⟨_, exec_fieldInstr_of_short hfirst⟩
  have hk : k = 3 := by_contra fun hk =>
    hfits (by simpa [firstReadWidth, hk] using hfirst)
  subst hk
  have htemp : s.off + 2 ≤ s.len := Nat.not_lt.1 hfirst
  exact ⟨_, exec_field3_of_temperature_only htemp (Nat.not_le.1 hfits) (hbyte (by omega)) (hbyte (by omega))⟩

section
variable {s : State} (hinv : Inv s)
include hinv

/-- At `AwaitingTag` the gates route the decode elsewhere or let it on, or the frame is empty (R162, R163). -/
theorem header_step_movesForward (hcall : s.call = none) (hst : s.st = .awaitingTag) :
    ∃ t, step s = .next t ∧ MovesForward s t := by
  have hrun : s.st.running = true := by rw [hst]; rfl
  obtain ⟨hmem, ⟨-, -, hoff⟩, -⟩ := hinv
  rw [hst] at hoff
  by_cases hch : s.ch = s.cfg.channelId
  case neg => exact ⟨_, step_awaitingTag_of_foreign hcall hst hch, .of_end hrun rfl (Nat.le_refl _)⟩
  rw [step_awaitingTag_of_own hcall hst hch]
  by_cases hlen : s.len < s.off + 1
  · exact ⟨_, exec_tagchk_of_short hlen, .of_end hrun rfl (Nat.le_refl _)⟩
  · obtain ⟨b, hb⟩ := Memory.byteAt_isSome_of_complete (a := 0) hmem (by omega)
    refine ⟨_, exec_tagchk_of_byte (Nat.not_lt.1 hlen) hb, ?_⟩
    split
    · exact .of_end hrun rfl (Nat.le_refl _)
    · exact ⟨by rw [hst]; exact Nat.lt_succ_self 1, by rw [hoff]; exact Nat.zero_le _⟩

/-- At `AwaitingBitmap` the bitmap says which group is next, or the frame has no bitmap (R164). -/
theorem bitmap_step_movesForward (hcall : s.call = none) (hst : s.st = .awaitingBitmap) :
    ∃ t, step s = .next t ∧ MovesForward s t := by
  rw [step_awaitingBitmap hcall hst]
  by_cases hlen : s.len < s.off + 1
  · exact ⟨_, exec_bmload_of_short hlen, .of_end (by rw [hst]; rfl) rfl (Nat.le_refl _)⟩
  · obtain ⟨hmem, -⟩ := hinv
    obtain ⟨b, hb⟩ := Memory.byteAt_isSome_of_complete (a := s.off) hmem (by omega)
    exact ⟨_, exec_bmload_of_byte (Nat.not_lt.1 hlen) hb,
      .of_enterNext (Nat.zero_le 7) (by rw [hst]; decide) (Nat.le_succ _)⟩

/-- At a group its step goes on behind the group, or the frame was too short for it (R166 to R172, R213). -/
theorem field_step_movesForward {k : Fin 7} (hcall : s.call = none) (hst : s.st = .field k) :
    ∃ t, step s = .next t ∧ MovesForward s t := by
  have hrun : s.st.running = true := by rw [hst]; rfl
  obtain ⟨hmem, -⟩ := hinv
  obtain ⟨t, ht⟩ := exec_fieldInstr_completes k hmem
  refine ⟨t, (step_field hcall hst).trans ht, ?_⟩
  rcases (exec_effectKind ht).field_cases with ⟨r, -, -, rfl⟩ | rfl | ⟨-, -, rfl⟩
  · exact .of_enterNext k.isLt (by rw [hst]; exact Nat.lt_succ_self _) (Nat.le_add_right ..)
  · exact .of_end hrun rfl (Nat.le_refl _)
  · exact .of_end hrun rfl (Nat.le_add_right ..)

end

/-- Settles O41: by the parser state that the step leaves. -/
theorem everyDecodeMovesForward : Obligations.EveryDecodeMovesForward := by
  intro s hinv hcall hrun
  obtain ⟨t, hstep, hfwd⟩ : ∃ t, step s = .next t ∧ MovesForward s t := by
    cases hst : s.st with
    | awaitingTag => exact header_step_movesForward hinv hcall hst
    | awaitingBitmap => exact bitmap_step_movesForward hinv hcall hst
    | field k => exact field_step_movesForward hinv hcall hst
    | idle | done | notMine | failed => simp [hst, PState.running] at hrun
  exact ⟨t, hstep, hfwd.rank, hfwd.off⟩

end Sys2Proof.Machine
end
